-- ==== Sys2Proof/Word.lean ====
section
/-! DEFINITION. The words the block exchanges: bytes, 32-bit words, and an operation as it stands on a port. -/

namespace Sys2Proof

/-- One byte of the stream (R18: 8 bits). Bit 0 is the least significant (R9). -/
abbrev Byte := BitVec 8

/-- A 32-bit command word, host word, register or value (R5, R51). -/
abbrev Word := BitVec 32

/-- One operation as it is presented to the block (R12, R51): a command word on the command port, or a host
word on the host port with the payload delivered beside it (R55; empty for every word but LOAD's). The port is
part of the operation, because the two ports use overlapping words. -/
inductive Operation where
  | command (word : Word)
  | host (word : Word) (payload : List Byte)
deriving DecidableEq, Repr

end Sys2Proof
end

