-- ==== Sys2Proof/Config.lean ====
section
/-! DEFINITION. The parameters of the block: what the spec fixes, and the one it leaves to the implementation. -/

namespace Sys2Proof

/-- `WORD_BITS` (R5, D2): the largest count a READ or PEEK accepts. -/
def wordBits : Nat := 32

/-- The implementation parameters (R6, D5). `maxLenBytes` is MAX_LEN_BYTES, the largest stream LOAD accepts.
R6's constraint `8 * MAX_LEN_BYTES <= 2^32 - 1` holds of exactly the naturals below 2^29 = 536870912, so it is
carried by the type. A machine's `State` holds its parameters and no step changes them: a statement about every
state is a statement about every legal MAX_LEN_BYTES (assumption log 1). -/
structure Config where
  maxLenBytes : Fin 536870912
deriving DecidableEq, Repr

/-- The default this spec takes for MAX_LEN_BYTES: 2^29 - 1 (R6). -/
def Config.specDefault : Config := ⟨⟨536870911, by decide⟩⟩

end Sys2Proof
end

