-- ==== Sys2Proof/Syntax.lean ====
section
/-! DEFINITION. The instruction set: one constructor per row of spec/opcode_table.json. -/

namespace Sys2Proof

/-- The seven operations of SQP-BR revision 1 (R57, R58). The operands have the widths of their fields (R52 to
R56); a READ or PEEK count above 32 fits its field and is refused by `Instr.wf`. -/
inductive Instr where
  /-- READ n: read n bits and consume them (R64). -/
  | read (n : BitVec 6)
  /-- PEEK n: return the next n bits without consuming them (R65). -/
  | peek (n : BitVec 6)
  /-- EXHAUSTED: report whether any unread bit remains (R68). -/
  | exhausted
  /-- READB k: skip to a byte boundary, then read k raw bytes (R70). -/
  | readb (k : BitVec 28)
  /-- RESET: return the block to its reset state (R73). -/
  | reset
  /-- LOAD data: install a new stream and start reading it at bit 0 (R74). -/
  | load (payload : List Byte)
  /-- READ_REG r: return a register to the host (R75). -/
  | readReg (r : BitVec 4)
deriving DecidableEq, Repr

end Sys2Proof
end

