-- ==== Sys2Proof/Machine/State.lean ====
section
/-! DEFINITION. The state of the block as plain data, the reasons a step can stop, and the state after reset. -/

namespace Sys2Proof.Machine

/-- The status codes of R77. The block itself produces only `ok`, `truncatedStream` and `illegalCommand`; the
others belong to its clients and share the code space (R80). -/
inductive StatusCode where
  | ok
  | formatError
  | dimensionError
  | unsupportedColorFormat
  | invalidQuality
  | truncatedStream
  | corruptData
  | illegalCommand
deriving DecidableEq, Repr

/-- `respond(status, value, avail, bytes)`, the response of a command (R25). -/
structure CmdResponse where
  /-- STATUS.CODE after the command. -/
  status : BitVec 4
  /-- The bits a READ or PEEK returns; 0 or 1 for EXHAUSTED; 0 for READB and on error. -/
  value : Word
  /-- For PEEK, how many bits were available (0..32); 0 for every other command and on error. -/
  avail : BitVec 6
  /-- For READB, the bytes delivered in stream order; empty for every other command and on error. -/
  bytes : List Byte
deriving DecidableEq, Repr

/-- What the block answers on the port an operation came from: a command's response (R25), or the host port's
32-bit response word (R25, R73 to R75). -/
inductive Response where
  | command (r : CmdResponse)
  | host (word : Word)
deriving DecidableEq, Repr

/-- The contents of BUF as (offset, byte) cells in one canonical form (`Memory.wf` in Machine/Ops.lean; assumption
log 3). -/
abbrev Memory := List Host.Cell

/-- Why the model stops. -/
inductive Fault where
  /-- Raised by the stream primitives MemRead and Bits when they are asked for a byte or bit the stream does not
  have, where R11 and R32 leave them undefined. Safe: the block's own checks come first, so no state with
  `POS <= 8*LEN` (R20) raises it. -/
  | outsideStream
deriving DecidableEq, Repr

/-- Why the model gives an instruction no meaning. -/
inductive Refusal where
  /-- Raised by an arm of `exec` for an instruction that has no meaning yet. Safe. No arm raises it. -/
  | notModelled (mnemonic : String)
deriving DecidableEq, Repr

/-- The state of the block. BUF, LEN, POS and STATUS are the architectural state (R14); STATUS[31:4] is
hardwired to zero and has no storage (R21, see `State.statusReg`). The last three fields are the model's own: the
parameters of this machine (DESIGN CHOICE, safe: assumption log 1), the operations presented and not yet taken (DESIGN
CHOICE, safe: log 2), and the output of the last operation (DESIGN CHOICE: log 4). -/
structure State where
  /-- BUF, the stream buffer (R18): the bytes at offsets below LEN. -/
  buf : Memory
  /-- LEN, the length of BUF in bytes (R19). -/
  len : Word
  /-- POS, the index of the next stream bit (R20). -/
  pos : Word
  /-- STATUS.CODE, bits 3:0 of STATUS (R21). -/
  statusCode : BitVec 4
  /-- MAX_LEN_BYTES (R6), fixed for the machine. -/
  cfg : Config
  /-- The operations waiting on the two ports, in arrival order (R12, R46). -/
  pending : List Operation
  /-- The response of the last operation, an output that no rule reads (R14, R25). -/
  response : Option Response
deriving DecidableEq, Repr

/-- The state at power-on and after reset (R94, R95): BUF empty, LEN, POS and STATUS 0; the parameters at the
spec's default (R6); nothing presented, nothing answered. -/
def State.reset : State where
  buf := []
  len := 0
  pos := 0
  statusCode := 0
  cfg := Config.specDefault
  pending := []
  response := none

end Sys2Proof.Machine
end

