-- ==== Sys2Proof/Machine/Flags.lean ====
section
/-! DEFINITION. The conditions the block computes from its registers. It has no flags or condition codes (R22):
"is exhausted" and the level output `err` are computed, never stored. -/

namespace Sys2Proof.Machine

/-- `8*LEN`, the number of bits of the stream, on naturals (R9). -/
def State.bitLen (s : State) : Nat := 8 * s.len.toNat

/-- `R = 8*LEN - POS`, the remaining bits (R13), on naturals (R9); 0 where POS is beyond the stream, which R20
excludes (DESIGN CHOICE, safe: assumption log 10). -/
def State.remaining (s : State) : Nat := s.bitLen - s.pos.toNat

/-- Whether no unread bit remains: `POS == 8*LEN` (R22, R68). -/
def State.isExhausted (s : State) : Bool := s.pos.toNat == s.bitLen

/-- CODE = 0: the block is in its running state; otherwise it is in the error state (R21). -/
def State.isRunning (s : State) : Bool := s.statusCode == 0#4

/-- The level output `err`: 1 exactly when `STATUS.CODE != 0` (R26). -/
def State.err (s : State) : Bool := s.statusCode != 0#4

end Sys2Proof.Machine
end

