-- ==== Sys2Proof/Machine/Ops.lean ====
section
/-! DEFINITION. The operations every meaning is built from: the stream buffer, the bits of the stream, the two
kinds of response, entering the error state and leaving it. -/

namespace Sys2Proof.Machine

/-! ## The stream buffer -/

/-- What an offset that has no cell reads as. LOAD writes every byte of the stream, so this only says which bytes
need no cell (DESIGN CHOICE, safe: assumption log 3). -/
def unlistedByte : Byte := 0

/-- The byte the cells hold at an offset. -/
def Memory.read : Memory → Nat → Byte
  | [], _ => unlistedByte
  | (a, b) :: m, x => if a = x then b else Memory.read m x

/-- The cells of a byte sequence laid out from offset `a` on. -/
def Memory.ofBytesFrom (a : Nat) : List Byte → Memory
  | [] => []
  | b :: bs =>
    if b = unlistedByte then Memory.ofBytesFrom (a + 1) bs else (a, b) :: Memory.ofBytesFrom (a + 1) bs

/-- The cells of a stream: its first byte stands at offset 0 (R18, R28). -/
def Memory.ofBytes (data : List Byte) : Memory := Memory.ofBytesFrom 0 data

/-- The cells are in canonical form from offset `lo` on. -/
def Memory.wfFrom (lo : Nat) : Memory → Bool
  | [] => true
  | (a, b) :: m => decide (lo ≤ a) && b != unlistedByte && Memory.wfFrom (a + 1) m

/-- The canonical form: offsets strictly rising, no cell equal to what an unlisted offset reads as. -/
def Memory.wf (m : Memory) : Bool := Memory.wfFrom 0 m

/-- `BUF[a]`: the byte at an offset below LEN; no offset at or above LEN exists (R11, R28). -/
def State.readByte (s : State) (a : Nat) : Option Byte :=
  if a < s.len.toNat then some (s.buf.read a) else none

/-- `MemRead(addr, n)`: the bytes `BUF[addr] .. BUF[addr+n-1]`, defined only when `addr + n <= LEN` (R11). -/
def State.memRead (s : State) (addr n : Nat) : Option (List Byte) :=
  if addr + n ≤ s.len.toNat then some ((List.range n).map fun i => s.buf.read (addr + i)) else none

/-! ## The bits of the stream -/

/-- `StreamBit(p)`: bit `7 - (p mod 8)` of byte `p div 8` (R31). -/
def State.streamBit (s : State) (p : Nat) : Nat :=
  ((s.buf.read (p / 8)).getLsbD (7 - p % 8)).toNat

/-- The `n` bits from `p` on as a number, the first of them its most significant bit (R32). -/
def State.bitsFrom (s : State) : Nat → Nat → Nat
  | _, 0 => 0
  | p, n + 1 => s.streamBit p * 2 ^ n + s.bitsFrom (p + 1) n

/-- `Bits(p, n)`, defined only when `p + n <= 8*LEN` (R32). -/
def State.bits (s : State) (p n : Nat) : Option Nat :=
  if p + n ≤ s.bitLen then some (s.bitsFrom p n) else none

/-- `AlignSkip(p) = (8 - (p mod 8)) mod 8`, the distance to the next byte boundary (R42). -/
def alignSkip (p : Nat) : Nat := (8 - p % 8) % 8

/-! ## Registers and responses -/

/-- `POS <- p`. Every value the rules store fits the 32 bits (R20, R66). -/
def State.setPos (s : State) (p : Nat) : State := { s with pos := BitVec.ofNat 32 p }

/-- `respond(status, value, avail, bytes)` (R11, R25). -/
def State.respond (s : State) (status : BitVec 4) (value : Word) (avail : BitVec 6) (bytes : List Byte) : State :=
  { s with response := some (.command ⟨status, value, avail, bytes⟩) }

/-- `host response word <- word` (R25, R73 to R75). -/
def State.respondHost (s : State) (word : Word) : State := { s with response := some (.host word) }

/-! ## The error state -/

/-- The number of a status code (R77). -/
def StatusCode.number : StatusCode → BitVec 4
  | .ok => 0
  | .formatError => 1
  | .dimensionError => 2
  | .unsupportedColorFormat => 3
  | .invalidQuality => 4
  | .truncatedStream => 5
  | .corruptData => 6
  | .illegalCommand => 7

/-- `raise E`, the error entry (R81): `STATUS.CODE <- E`, the response is `(E, 0, 0, [])`, and nothing else
happens. No register saves a position, no control is transferred (R78, R84): POS stays at the failing command. -/
def State.raise (s : State) (e : StatusCode) : State :=
  State.respond { s with statusCode := e.number } e.number 0 0 []

/-- Leaving the error state: the only ways out are RESET and LOAD, which set the stream, POS and STATUS together
(R76, R83). There is no return from an error that restores anything. This installs a stream and a status, with
POS at its first bit. -/
def State.install (s : State) (data : List Byte) (code : StatusCode) : State :=
  { s with buf := Memory.ofBytes data, len := BitVec.ofNat 32 data.length, pos := 0, statusCode := code.number }

/-! ## The order of the checks of a command (R85) -/

/-- How a step of this machine ends. -/
abbrev Result := Host.Outcome State Fault Refusal

/-- First check: in the error state a command changes nothing and answers with the recorded code (R82). Any non-zero
code is the error state, also one that no rule reaches (DEDUCED, assumption log 6). -/
def whenRunning (s : State) (body : Result) : Result :=
  if s.isRunning then body else .next (s.respond s.statusCode 0 0 [])

/-- Second check: an illegal word raises IllegalCommand before any operand is examined against the stream (R60,
R79). The decoder never hands on an illegal word; this covers a term with a count above 32, whose word R60 lists
(DEDUCED, assumption log 11). -/
def whenLegal (s : State) (legal : Bool) (body : Result) : Result :=
  if legal then body else .next (s.raise .illegalCommand)

/-- Third check: a command that would consume past the end of the stream raises TruncatedStream (R78). -/
def whenWithin (s : State) (within : Bool) (body : Result) : Result :=
  if within then body else .next (s.raise .truncatedStream)

/-- Goes on with the data a stream primitive gives, and stops where the primitive is not defined (R11, R32). -/
def withData {α : Type} (data : Option α) (body : α → State) : Result :=
  match data with
  | none => .fault .outsideStream
  | some d => .next (body d)

end Sys2Proof.Machine
end

