-- ==== Sys2Proof/Machine/Operands.lean ====
section
/-! DEFINITION. The operands of the instructions (R56: every operand is a zero-extended field, none is
sign-extended, scaled or shifted) and the registers READ_REG names (R75). A command has no register operand and no
address operand (R15, R56). -/

namespace Sys2Proof.Machine

/-- `n`, the bit count of READ and PEEK (R56). -/
def countOperand (n : BitVec 6) : Nat := n.toNat

/-- A bit count is legal when it is at most WORD_BITS (R5, R52). -/
def countLegal (n : BitVec 6) : Bool := decide (countOperand n ≤ wordBits)

/-- `k`, the byte count of READB (R56). -/
def byteCountOperand (k : BitVec 28) : Nat := k.toNat

/-- STATUS as it reads: CODE in bits 3:0, bits 31:4 hardwired to zero (R21, R75). -/
def State.statusReg (s : State) : Word := s.statusCode.setWidth 32

/-- The register a READ_REG names: 0 STATUS, 1 POS, 2 LEN; 3 to 15 are reserved and read as 0 (R75). -/
def State.readReg (s : State) (r : BitVec 4) : Word :=
  if r = 0#4 then s.statusReg
  else if r = 1#4 then s.pos
  else if r = 2#4 then s.len
  else 0

end Sys2Proof.Machine
end

