-- ==== Sys2Proof/Machine/BitReads.lean ====
section
/-! DEFINITION. READ and PEEK (40_bit_reads.md). -/

namespace Sys2Proof.Machine

/-- READ n (R64): n bits from POS on, consumed; TruncatedStream exactly when n > R, with POS unchanged. -/
def execRead (n : BitVec 6) (s : State) : Result :=
  whenRunning s <| whenLegal s (countLegal n) <|
    whenWithin s (decide (countOperand n ≤ s.remaining)) <|
      withData (s.bits s.pos.toNat (countOperand n)) fun v =>
        (s.setPos (s.pos.toNat + countOperand n)).respond 0 (BitVec.ofNat 32 v) 0 []

/-- PEEK n (R65): the bits available among the next n, left-aligned in an n-bit value and zero-filled below, and
how many they are. It never raises TruncatedStream and changes no state. -/
def execPeek (n : BitVec 6) (s : State) : Result :=
  whenRunning s <| whenLegal s (countLegal n) <|
    withData (s.bits s.pos.toNat (min (countOperand n) s.remaining)) fun v =>
      s.respond 0 (BitVec.ofNat 32 (v * 2 ^ (countOperand n - min (countOperand n) s.remaining)))
        (BitVec.ofNat 6 (min (countOperand n) s.remaining)) []

end Sys2Proof.Machine
end

