-- ==== Sys2Proof/Machine/ByteBlock.lean ====
section
/-! DEFINITION. READB (42_byte_block.md). -/

namespace Sys2Proof.Machine

/-- `POS + s + 8*k`, where READB k leaves POS: on naturals, never modulo 2^32 (R66, R70). -/
def State.readbEnd (s : State) (k : Nat) : Nat := s.pos.toNat + alignSkip s.pos.toNat + 8 * k

/-- READB k (R70): skip to the next byte boundary, then deliver k bytes; all or nothing (R44), the skipped bits
unchecked (R40). -/
def execReadb (k : BitVec 28) (s : State) : Result :=
  whenRunning s <|
    whenWithin s (decide (s.readbEnd (byteCountOperand k) ≤ s.bitLen)) <|
      withData (s.memRead ((s.pos.toNat + alignSkip s.pos.toNat) / 8) (byteCountOperand k)) fun bytes =>
        (s.setPos (s.readbEnd (byteCountOperand k))).respond 0 0 0 bytes

end Sys2Proof.Machine
end

