-- ==== Sys2Proof/Machine/HostOps.lean ====
section
/-! DEFINITION. RESET, LOAD and READ_REG (43_host_ops.md). The host port is accepted in every state (R76). -/

namespace Sys2Proof.Machine

/-- RESET (R73): BUF empty, LEN, POS and STATUS 0; the response word is 0. -/
def execReset (s : State) : Result := .next ((s.install [] .ok).respondHost 0)

/-- LOAD data (R74): a copy of the payload becomes the stream, read from bit 0. A payload longer than
MAX_LEN_BYTES empties the buffer, puts the block in the error state with IllegalCommand, and answers 7. -/
def execLoad (payload : List Byte) (s : State) : Result :=
  if payload.length > s.cfg.maxLenBytes.val then
    .next ((s.install [] .illegalCommand).respondHost 7)
  else
    .next ((s.install payload .ok).respondHost 0)

/-- READ_REG r (R75): the response word is the register; no state changes. -/
def execReadReg (r : BitVec 4) (s : State) : Result := .next (s.respondHost (s.readReg r))

end Sys2Proof.Machine
end

