-- ==== Sys2Proof/Machine/StreamQuery.lean ====
section
/-! DEFINITION. EXHAUSTED (41_stream_query.md). -/

namespace Sys2Proof.Machine

/-- EXHAUSTED (R68): 1 when POS is 8*LEN, else 0; no state changes. -/
def execExhausted (s : State) : Result :=
  whenRunning s <| .next (s.respond 0 (if s.isExhausted then 1 else 0) 0 [])

end Sys2Proof.Machine
end

