-- ==== Sys2Proof/Machine/Dispatch.lean ====
section
/-! DEFINITION. One arm per instruction: the meaning of each row of spec/opcode_table.json. -/

namespace Sys2Proof.Machine

def exec (i : Instr) (s : State) : Host.Outcome State Fault Refusal :=
  match i with
  | .read n => Sys2Proof.Machine.execRead n s
  | .peek n => Sys2Proof.Machine.execPeek n s
  | .exhausted => Sys2Proof.Machine.execExhausted s
  | .readb k => Sys2Proof.Machine.execReadb k s
  | .reset => Sys2Proof.Machine.execReset s
  | .load payload => Sys2Proof.Machine.execLoad payload s
  | .readReg r => Sys2Proof.Machine.execReadReg r s

end Sys2Proof.Machine
end

