-- ==== Sys2Proof/WellFormed.lean ====
section
/-! DEFINITION. Which terms of `Instr` are instructions of the block. -/

namespace Sys2Proof

/-- An instruction is well formed when its operands are legal: a READ or PEEK count is at most 32 (R52); every
READB count (R54), every register number (R55, R58) and a payload of any length (R55) is legal. -/
def Instr.wf : Instr → Bool
  | .read n => decide (n.toNat ≤ wordBits)
  | .peek n => decide (n.toNat ≤ wordBits)
  | .exhausted => true
  | .readb _ => true
  | .reset => true
  | .load _ => true
  | .readReg _ => true

/-- The instruction is one of the client's commands (R57, R88); the others are the host's operations (R58). -/
def Instr.isCommand : Instr → Bool
  | .read _ => true
  | .peek _ => true
  | .exhausted => true
  | .readb _ => true
  | .reset => false
  | .load _ => false
  | .readReg _ => false

end Sys2Proof
end

