-- ==== Sys2Proof/Decode.lean ====
section
/-! DEFINITION. The decoder of both ports, total and rejecting by name, and after it the encoder, each written
from the formats of 30_encoding.md. -/

namespace Sys2Proof

/-- Why a word is no instruction. `illegalCommand`: a command word that R59 maps to ILLEGAL (R60).
`reservedHostWord`: a host word that R61 calls reserved. Neither stops the machine: `step` gives each its
effect. -/
inductive DecodeError where
  | illegalCommand
  | reservedHostWord
deriving DecidableEq, Repr

/-- Bits 31:28, the field `op` or `hop` of every format (R52 to R55). -/
def opField (w : Word) : BitVec 4 := w.extractLsb' 28 4

/-- Bits 27:6, which format N requires to be 0 (R52). -/
def zeroFieldN (w : Word) : BitVec 22 := w.extractLsb' 6 22

/-- Bits 5:0, the bit count of format N (R52, R56). -/
def countField (w : Word) : BitVec 6 := w.extractLsb' 0 6

/-- Bits 27:0: format Z's zero field (R53) and format K's byte count (R54, R56). -/
def lowField (w : Word) : BitVec 28 := w.extractLsb' 0 28

/-- Bits 27:4, which format H requires to be 0 (R55). -/
def zeroFieldH (w : Word) : BitVec 24 := w.extractLsb' 4 24

/-- Bits 3:0, the register number of format H (R55, R56). -/
def regField (w : Word) : BitVec 4 := w.extractLsb' 0 4

/-- `Decode` of a command word, R59 line by line. -/
def decodeCommand (w : Word) : Except DecodeError Instr :=
  if opField w = 0x1#4 ∧ zeroFieldN w = 0 ∧ (countField w).toNat ≤ wordBits then .ok (.read (countField w))
  else if opField w = 0x2#4 ∧ zeroFieldN w = 0 ∧ (countField w).toNat ≤ wordBits then .ok (.peek (countField w))
  else if opField w = 0x3#4 ∧ lowField w = 0 then .ok .exhausted
  else if opField w = 0x4#4 then .ok (.readb (lowField w))
  else .error .illegalCommand

/-- The host operation of a host word (R58, R61). Only LOAD takes the payload (R55); beside any other word it is
dropped (DESIGN CHOICE, unsafe: assumption log 9). -/
def decodeHost (w : Word) (payload : List Byte) : Except DecodeError Instr :=
  if opField w = 0x0#4 ∧ zeroFieldH w = 0 ∧ regField w = 0 then .ok .reset
  else if opField w = 0x1#4 ∧ zeroFieldH w = 0 ∧ regField w = 0 then .ok (.load payload)
  else if opField w = 0x2#4 ∧ zeroFieldH w = 0 then .ok (.readReg (regField w))
  else .error .reservedHostWord

/-- The instruction an operation stands for: each port has its own decoder (R51, R88). -/
def decode : Operation → Except DecodeError Instr
  | .command w => decodeCommand w
  | .host w payload => decodeHost w payload

/-- The word of an instruction on its port, as the rule of each instruction gives it (R64, R65, R68, R70 and
R58). -/
def encodeWord : Instr → Word
  | .read n => 0x10000000#32 ||| n.setWidth 32
  | .peek n => 0x20000000#32 ||| n.setWidth 32
  | .exhausted => 0x30000000#32
  | .readb k => 0x40000000#32 ||| k.setWidth 32
  | .reset => 0x00000000#32
  | .load _ => 0x10000000#32
  | .readReg r => 0x20000000#32 ||| r.setWidth 32

/-- The payload delivered beside a host word: LOAD's data, else nothing (R55). -/
def encodePayload : Instr → List Byte
  | .read _ => []
  | .peek _ => []
  | .exhausted => []
  | .readb _ => []
  | .reset => []
  | .load payload => payload
  | .readReg _ => []

/-- The operation that presents an instruction: its word on the port that may issue it (R88). -/
def encode (i : Instr) : Operation :=
  if i.isCommand then .command (encodeWord i) else .host (encodeWord i) (encodePayload i)

/-- A word of spec/opcode_table.json as an operation. The table's words carry no port, and some of them are
words of both ports (R57, R58), so the more specific row is taken: a word the host port defines is the host's,
every other word is the client's (DESIGN CHOICE, safe: assumption log 5). A LOAD gets the empty payload: the table gives the payload
no bits. -/
def tableOperation (nbits w : Nat) : Operation :=
  match decodeHost (BitVec.ofNat 32 (w % 2 ^ nbits)) [] with
  | .ok _ => .host (BitVec.ofNat 32 (w % 2 ^ nbits)) []
  | .error _ => .command (BitVec.ofNat 32 (w % 2 ^ nbits))

/-- The instruction this decoder reads from a table word of `nbits` bits; every word is 32 bits long (R51), so a
longer one is no instruction. -/
def decodeTableWord (nbits w : Nat) : Option Instr :=
  if nbits ≤ 32 then
    match decode (tableOperation nbits w) with
    | .ok i => some i
    | .error _ => none
  else none

end Sys2Proof
end

