-- ==== Sys2Proof/Machine/Ports.lean ====
section
/-! DEFINITION. The two ports: how an operation is taken, and what a word that is no instruction does. -/

namespace Sys2Proof.Machine

/-- The next operation in arrival order, and the state with it taken from its port (R12, R16). `none`: the block
is idle. -/
def State.takeOperation (s : State) : Option (Operation × State) :=
  match s.pending with
  | [] => none
  | op :: rest => some (op, { s with pending := rest })

/-- An operation presented so that the block takes it next. -/
def State.present (s : State) (op : Operation) : State := { s with pending := op :: s.pending }

/-- An illegal command word: nothing in the error state (R82), else IllegalCommand (R60, R79). -/
def execIllegalCommand (s : State) : Result := whenRunning s <| whenLegal s false <| .next s

/-- A reserved host word: ignored, the payload discarded, response word 0 (R61). -/
def execReservedHostWord (s : State) : Result := .next (s.respondHost 0)

/-- The effect of an operation that is no instruction. -/
def execUndecoded (e : DecodeError) (s : State) : Result :=
  match e with
  | .illegalCommand => execIllegalCommand s
  | .reservedHostWord => execReservedHostWord s

end Sys2Proof.Machine
end

