-- ==== Sys2Proof/Machine/Step.lean ====
section
/-! DEFINITION. One step: `Step(S, op)` of R12 for the next operation presented. -/

namespace Sys2Proof.Machine

/-- One atomic, untimed step (R12, R104): take the next operation, decode it on its port, run it. With nothing
presented the block is idle and keeps all its state (R93; DESIGN CHOICE, safe: assumption log 2). -/
def step (s : State) : Host.Outcome State Fault Refusal :=
  match s.takeOperation with
  | none => .next s
  | some (op, t) =>
    match decode op with
    | .ok i => exec i t
    | .error e => execUndecoded e t

/-- `s` with a word of spec/opcode_table.json presented as the next operation (assumption logs 2 and 5). -/
def State.withFetchWord (s : State) (nbits w : Nat) : State := s.present (tableOperation nbits w)

end Sys2Proof.Machine
end

