-- ==== Sys2Proof/Machine/Assembler.lean ====
section
/-! DEFINITION. The assembly text of 30_encoding.md section 5 (R62) and its pseudo-instructions (R63), on lists of
characters. What R62 leaves open (blanks, letter case, how a byte is written) is fixed here (DESIGN CHOICE, unsafe:
assumption log 7). -/

namespace Sys2Proof.Machine

/-- Why a line is refused (R62). -/
inductive AsmError where
  /-- No mnemonic of R62 or R63 with operands of its form. -/
  | unknownLine
  /-- A number above what the instruction's field may hold. -/
  | operandRange
deriving DecidableEq, Repr

/-! ## Pseudo-instructions (R63) -/

/-- `ALIGN` = `READB 0`. -/
def pseudoAlign : Instr := .readb 0

/-- `SKIP n` = `READ n`, for a count that fits its field. -/
def pseudoSkip (n : BitVec 6) : Instr := .read n

/-- `READ_BE k` = `READ 8k`, k = 1..4. -/
def pseudoReadBE (k : Nat) : Instr := .read (BitVec.ofNat 6 (8 * k))

/-! ## Numbers -/

/-- The value of a digit in base 16. -/
def digitValue (c : Char) : Option Nat :=
  if 48 ≤ c.toNat ∧ c.toNat ≤ 57 then some (c.toNat - 48)
  else if 97 ≤ c.toNat ∧ c.toNat ≤ 102 then some (c.toNat - 87)
  else if 65 ≤ c.toNat ∧ c.toNat ≤ 70 then some (c.toNat - 55)
  else none

/-- The number that digits in a base write, after a part already read. -/
def digits (base : Nat) : List Char → Nat → Option Nat
  | [], acc => some acc
  | c :: cs, acc =>
    match digitValue c with
    | none => none
    | some d => if d < base then digits base cs (acc * base + d) else none

/-- A number in decimal, or in hexadecimal after `0x` (R62). -/
def parseNumber : List Char → Option Nat
  | '0' :: 'x' :: c :: cs => digits 16 (c :: cs) 0
  | c :: cs => digits 10 (c :: cs) 0
  | [] => none

/-- A byte of LOAD's payload, in hexadecimal (R62). -/
def parseByte : List Char → Option Byte
  | '0' :: 'x' :: c :: cs =>
    match digits 16 (c :: cs) 0 with
    | some v => if v < 256 then some (BitVec.ofNat 8 v) else none
    | none => none
  | _ => none

/-! ## Tokens -/

/-- The token read so far, if there is one. -/
def flushToken (cur : List Char) : List (List Char) := if cur = [] then [] else [cur]

/-- A line cut at blanks, with each bracket and comma a token of its own, up to the comment (R62). -/
def tokens : List Char → List Char → List (List Char)
  | [], cur => flushToken cur
  | c :: cs, cur =>
    if c = ';' then flushToken cur
    else if c = ' ' ∨ c = '\t' ∨ c = '\r' then flushToken cur ++ tokens cs []
    else if c = '[' ∨ c = ']' ∨ c = ',' then flushToken cur ++ [c] :: tokens cs []
    else tokens cs (cur ++ [c])

/-- The rest of a byte list after its first byte: `, b` as often as it stands, then `]`. -/
def parseMoreBytes : List (List Char) → Option (List Byte)
  | [[']']] => some []
  | [','] :: b :: rest =>
    match parseByte b, parseMoreBytes rest with
    | some v, some vs => some (v :: vs)
    | _, _ => none
  | _ => none

/-- `[b0, b1, ...]` (R62). -/
def parseByteList : List (List Char) → Option (List Byte)
  | [['['], [']']] => some []
  | ['['] :: b :: rest =>
    match parseByte b, parseMoreBytes rest with
    | some v, some vs => some (v :: vs)
    | _, _ => none
  | _ => none

/-! ## Lines -/

/-- An operand that must be at most `limit`. -/
def operandUpTo (limit : Nat) (text : List Char) (build : Nat → Instr) : Except AsmError Instr :=
  match parseNumber text with
  | none => .error .unknownLine
  | some v => if v ≤ limit then .ok (build v) else .error .operandRange

/-- A register's name, or a number (R62, R75). -/
def assembleReadReg (text : List Char) : Except AsmError Instr :=
  if text = ['S', 'T', 'A', 'T', 'U', 'S'] then .ok (.readReg 0)
  else if text = ['P', 'O', 'S'] then .ok (.readReg 1)
  else if text = ['L', 'E', 'N'] then .ok (.readReg 2)
  else operandUpTo 15 text fun v => .readReg (BitVec.ofNat 4 v)

/-- `READ_BE k` takes k = 1..4 (R63). -/
def assembleReadBE (text : List Char) : Except AsmError Instr :=
  match parseNumber text with
  | none => .error .unknownLine
  | some v => if 1 ≤ v ∧ v ≤ 4 then .ok (pseudoReadBE v) else .error .operandRange

/-- A mnemonic that stands alone. -/
def assembleBare (mnemonic : List Char) : Except AsmError Instr :=
  if mnemonic = ['E', 'X', 'H', 'A', 'U', 'S', 'T', 'E', 'D'] then .ok .exhausted
  else if mnemonic = ['R', 'E', 'S', 'E', 'T'] then .ok .reset
  else if mnemonic = ['A', 'L', 'I', 'G', 'N'] then .ok pseudoAlign
  else .error .unknownLine

/-- A mnemonic with one operand. -/
def assembleUnary (mnemonic text : List Char) : Except AsmError Instr :=
  if mnemonic = ['R', 'E', 'A', 'D'] then operandUpTo wordBits text fun v => .read (BitVec.ofNat 6 v)
  else if mnemonic = ['P', 'E', 'E', 'K'] then operandUpTo wordBits text fun v => .peek (BitVec.ofNat 6 v)
  else if mnemonic = ['S', 'K', 'I', 'P'] then operandUpTo wordBits text fun v => pseudoSkip (BitVec.ofNat 6 v)
  else if mnemonic = ['R', 'E', 'A', 'D', 'B'] then operandUpTo 268435455 text fun v => .readb (BitVec.ofNat 28 v)
  else if mnemonic = ['R', 'E', 'A', 'D', '_', 'B', 'E'] then assembleReadBE text
  else if mnemonic = ['R', 'E', 'A', 'D', '_', 'R', 'E', 'G'] then assembleReadReg text
  else .error .unknownLine

/-- `LOAD [b0, b1, ...]`. -/
def assembleLoad (mnemonic : List Char) (operands : List (List Char)) : Except AsmError Instr :=
  if mnemonic = ['L', 'O', 'A', 'D'] then
    match parseByteList operands with
    | some data => .ok (.load data)
    | none => .error .unknownLine
  else .error .unknownLine

/-- The instruction of one line (R62, R63); `none` for a line with nothing but blanks or a comment. -/
def assembleLine (line : List Char) : Except AsmError (Option Instr) :=
  match tokens line [] with
  | [] => .ok none
  | [m] => (assembleBare m).map some
  | [m, a] => (assembleUnary m a).map some
  | m :: rest => (assembleLoad m rest).map some

end Sys2Proof.Machine
end

