-- ==== Sys2Proof/Machine/Client.lean ====
section
/-! DEFINITION. A client's view of the block: the responses of a sequence of instructions, each issued after the
one before it has answered (R12, R98). -/

namespace Sys2Proof.Machine

/-- Runs the instructions in order and collects their responses; `none` if one stops or does not answer. -/
def issue : List Instr → State → Option (List Response × State)
  | [], s => some ([], s)
  | i :: is, s =>
    match exec i s with
    | .next t =>
      match t.response, issue is t with
      | some r, some (rs, u) => some (r :: rs, u)
      | _, _ => none
    | .fault _ => none
    | .refused _ => none

end Sys2Proof.Machine
end

