-- ==== Sys2Proof/Machine/Writer.lean ====
section
/-! DEFINITION. The writer's layout (20_memory.md section 3), which fixes the format the reader parses. It is a
reference function over bit lists, first bit first, not a model of the writer as a block (R4). -/

namespace Sys2Proof.Machine

/-- "write N bits of value V": bits `V[N-1], ..., V[0]`, the low N bits of V (R36). -/
def Writer.fieldBits (n v : Nat) : List Bool := (List.range n).map fun i => v.testBit (n - 1 - i)

/-- The bits so far, padded with 0 bits to a whole number of bytes (R37, R38). -/
def Writer.pad (bits : List Bool) : List Bool := bits ++ List.replicate (alignSkip bits.length) false

/-- What a writer may be asked to write. -/
inductive WriterField where
  /-- "write N bits of value V" (R36). -/
  | bits (n : BitVec 6) (v : Nat)
  /-- "write a byte-aligned block of raw bytes" (R37). -/
  | block (data : List Byte)
deriving DecidableEq, Repr

/-- The bits after one more write (R36, R37; an empty block still pads). -/
def Writer.append (bits : List Bool) : WriterField → List Bool
  | .bits n v => bits ++ Writer.fieldBits n.toNat v
  | .block data => Writer.pad bits ++ data.flatMap fun b => Writer.fieldBits 8 b.toNat

/-- The bits of a sequence of writes, from the empty stream (R39). -/
def Writer.written (fields : List WriterField) : List Bool := fields.foldl Writer.append []

/-- The number whose binary digits, most significant first, are the given bits (R32). -/
def Writer.number (bits : List Bool) : Nat := bits.foldl (fun acc b => 2 * acc + b.toNat) 0

/-- Bits grouped eight at a time into bytes, the first bit of each group its bit 7 (R31, R38). -/
def Writer.pack : List Bool → List Byte
  | b7 :: b6 :: b5 :: b4 :: b3 :: b2 :: b1 :: b0 :: rest =>
    BitVec.ofNat 8 (Writer.number [b7, b6, b5, b4, b3, b2, b1, b0]) :: Writer.pack rest
  | _ => []

/-- The bytes of the finished stream (R38). -/
def Writer.finish (fields : List WriterField) : List Byte := Writer.pack (Writer.pad (Writer.written fields))

/-- A write that one command can read back: at most 32 bits (R36), at most `2^28 - 1` bytes (R7). -/
def WriterField.legal : WriterField → Bool
  | .bits n _ => decide (n.toNat ≤ wordBits)
  | .block data => decide (data.length < 2 ^ 28)

/-- The command that reads a write back (R39). -/
def WriterField.command : WriterField → Instr
  | .bits n _ => .read n
  | .block data => .readb (BitVec.ofNat 28 data.length)

/-- The response that command gives (R39): `v mod 2^n`, or the block's bytes. -/
def WriterField.expected : WriterField → CmdResponse
  | .bits n v => ⟨0, BitVec.ofNat 32 (v % 2 ^ n.toNat), 0, []⟩
  | .block data => ⟨0, 0, 0, data⟩

end Sys2Proof.Machine
end

