-- ==== Sys2Proof/Safety.lean ====
section
/-! DEFINITION. What the claims about the block are stated in: its invariant, the law of its responses, and the
relations between the state before and after an operation. -/

namespace Sys2Proof.Machine

/-- The invariant of the block: the registers hold legal values (R19, R20, R21) and BUF is the stream of LEN bytes
in canonical form (R18). -/
structure Inv (s : State) : Prop where
  /-- BUF is in canonical form. -/
  canonical : s.buf.wf = true
  /-- No byte exists at or above LEN (R28). -/
  within : ∀ c ∈ s.buf, c.1 < s.len.toNat
  /-- `LEN <= MAX_LEN_BYTES` (R19). -/
  lenLegal : s.len.toNat ≤ s.cfg.maxLenBytes.val
  /-- `POS <= 8*LEN` (R20). -/
  posLegal : s.pos.toNat ≤ 8 * s.len.toNat
  /-- CODE is 0 (OK), 5 (TruncatedStream) or 7 (IllegalCommand) (R21). -/
  codeLegal : s.statusCode = 0 ∨ s.statusCode = 5 ∨ s.statusCode = 7

/-- What R25 says of a command's response: its status is STATUS.CODE after the command, at most 32 bits are
available, no more bytes come than one READB can carry, and value, avail and bytes are empty when the status is not
0. -/
structure ResponseLaw (s : State) (r : CmdResponse) : Prop where
  status : r.status = s.statusCode
  avail : r.avail.toNat ≤ 32
  bytes : r.bytes.length ≤ 2 ^ 28 - 1
  silent : r.status ≠ 0 → r.value = 0 ∧ r.avail = 0 ∧ r.bytes = []

/-- The output a command left keeps the law of R25. -/
def ResponseInv (s : State) : Prop := ∀ r, s.response = some (.command r) → ResponseLaw s r

/-- Every byte of the stream buffer reads after as before, and LEN and the parameters stand (R18, R45). -/
structure StreamKept (s t : State) : Prop where
  bytes : ∀ a, t.readByte a = s.readByte a
  len : t.len = s.len
  cfg : t.cfg = s.cfg

/-- Two states a client cannot tell apart by the stream it has yet to read: the same LEN, POS and CODE, and the
same bits from POS on. -/
structure SameUnread (s t : State) : Prop where
  len : t.len = s.len
  pos : t.pos = s.pos
  code : t.statusCode = s.statusCode
  unread : ∀ p, s.pos.toNat ≤ p → p < s.bitLen → t.streamBit p = s.streamBit p

/-- R60's list of the illegal command words, on the fields of the word: opcodes 0x0 and 0x5 to 0xF with any operand
bits; READ or PEEK with any of bits 27:6 set or with n in 33..63; EXHAUSTED with any of bits 27:0 set. -/
def IllegalWord (w : Word) : Prop :=
  w.toNat / 2 ^ 28 = 0 ∨ 5 ≤ w.toNat / 2 ^ 28 ∨
  ((w.toNat / 2 ^ 28 = 1 ∨ w.toNat / 2 ^ 28 = 2) ∧ (w.toNat / 2 ^ 6 % 2 ^ 22 ≠ 0 ∨ 33 ≤ w.toNat % 2 ^ 6)) ∨
  (w.toNat / 2 ^ 28 = 3 ∧ w.toNat % 2 ^ 28 ≠ 0)

/-- R61's list of the reserved host words: hop 0x3 to 0xF, or bits 27:4 not all 0, or a RESET or LOAD word whose reg
field is not 0. -/
def ReservedHostWord (w : Word) : Prop :=
  3 ≤ w.toNat / 2 ^ 28 ∨ w.toNat / 2 ^ 4 % 2 ^ 24 ≠ 0 ∨ (w.toNat / 2 ^ 28 ≤ 1 ∧ w.toNat % 2 ^ 4 ≠ 0)

end Sys2Proof.Machine
end

