-- ==== Sys2Proof/Certificates/Slice0/Obligations.lean ====
section
/-! DEFINITION. The statements for the provers. Each docstring names the rules of spec/ it comes from. -/

open Sys2Proof Sys2Proof.Machine

/-! ## Decoding and encoding -/

/-- R51 to R58: encoding a well-formed instruction and decoding the word on its port gives the instruction back, for
every operand its field admits. -/
def Obligations.DecodeEncodeRoundTrip : Prop :=
  ∀ i : Instr, i.wf = true → decode (encode i) = .ok i

/-- R59, R58: every word that decodes has one spelling. What a command word decodes to is well formed and encodes to
that word; what a host word decodes to is well formed and encodes to that word, with the payload when it is a LOAD. -/
def Obligations.EncodeDecodeRoundTrip : Prop :=
  (∀ (w : Word) (i : Instr), decode (.command w) = .ok i → i.wf = true ∧ encode i = .command w) ∧
  (∀ (w : Word) (payload : List Byte) (i : Instr), decode (.host w payload) = .ok i →
    i.wf = true ∧ (encode i = .host w payload ∨ encode i = .host w [] ∧ ∀ d, i ≠ .load d))

/-- R57, R59: the match and mask of each command say exactly when a command word decodes to it, and every other word
is illegal. -/
def Obligations.CommandMapMatchesMasks : Prop :=
  ∀ w : Word,
    (∀ n, decode (.command w) = .ok (.read n) ↔
      w &&& 0xFFFFFFC0#32 = 0x10000000#32 ∧ w.toNat % 64 ≤ 32 ∧ n.toNat = w.toNat % 64) ∧
    (∀ n, decode (.command w) = .ok (.peek n) ↔
      w &&& 0xFFFFFFC0#32 = 0x20000000#32 ∧ w.toNat % 64 ≤ 32 ∧ n.toNat = w.toNat % 64) ∧
    (decode (.command w) = .ok .exhausted ↔ w = 0x30000000#32) ∧
    (∀ k, decode (.command w) = .ok (.readb k) ↔
      w &&& 0xF0000000#32 = 0x40000000#32 ∧ k.toNat = w.toNat % 2 ^ 28) ∧
    (decode (.command w) = .error .illegalCommand ↔
      ¬(w &&& 0xFFFFFFC0#32 = 0x10000000#32 ∧ w.toNat % 64 ≤ 32) ∧
      ¬(w &&& 0xFFFFFFC0#32 = 0x20000000#32 ∧ w.toNat % 64 ≤ 32) ∧
      w ≠ 0x30000000#32 ∧ w &&& 0xF0000000#32 ≠ 0x40000000#32)

/-- R58, R61: the exact words of the host operations, and the reserved ones. That a RESET or READ_REG word keeps its
meaning beside a payload, for every payload, is the model's choice (assumption log 9). -/
def Obligations.HostMapMatchesExactWords : Prop :=
  ∀ (w : Word) (payload : List Byte),
    (decode (.host w payload) = .ok .reset ↔ w = 0x00000000#32) ∧
    (∀ d, decode (.host w payload) = .ok (.load d) ↔ w = 0x10000000#32 ∧ d = payload) ∧
    (∀ r, decode (.host w payload) = .ok (.readReg r) ↔ w.toNat = 0x20000000 + r.toNat) ∧
    (decode (.host w payload) = .error .reservedHostWord ↔ ReservedHostWord w)

/-- R60: the command words that decode to no instruction are exactly the listed ones. -/
def Obligations.IllegalWordsAreTheListedOnes : Prop :=
  ∀ w : Word, decode (.command w) = .error .illegalCommand ↔ IllegalWord w

/-- R88: no command reaches a host operation, and no host word a command. -/
def Obligations.PortsKeepTheirRights : Prop :=
  (∀ (w : Word) (i : Instr), decode (.command w) = .ok i →
    (∃ n, i = .read n) ∨ (∃ n, i = .peek n) ∨ i = .exhausted ∨ ∃ k, i = .readb k) ∧
  (∀ (w : Word) (payload : List Byte) (i : Instr), decode (.host w payload) = .ok i →
    i = .reset ∨ i = .load payload ∨ ∃ r, i = .readReg r)

/-- Words written out from R52 to R58, one for each family: READ 4, PEEK 8, EXHAUSTED, READB 2, RESET, LOAD with its
payload, READ_REG POS, and the all-zero command word, which is illegal (R60). -/
def Obligations.WrittenOutWordsDecode : Prop :=
  decode (.command 0b00010000000000000000000000000100#32) = .ok (.read 4) ∧
  decode (.command 0b00100000000000000000000000001000#32) = .ok (.peek 8) ∧
  decode (.command 0b00110000000000000000000000000000#32) = .ok .exhausted ∧
  decode (.command 0b01000000000000000000000000000010#32) = .ok (.readb 2) ∧
  decode (.host 0b00000000000000000000000000000000#32 []) = .ok .reset ∧
  decode (.host 0b00010000000000000000000000000000#32 [0xA5, 0x3C]) = .ok (.load [0xA5, 0x3C]) ∧
  decode (.host 0b00100000000000000000000000000001#32 []) = .ok (.readReg 1) ∧
  decode (.command 0b00000000000000000000000000000000#32) = .error .illegalCommand

/-! ## Steps -/

/-- R12, R16: when the next operation decodes to a well-formed instruction, a step takes it off its port and is that
instruction's effect. -/
def Obligations.StepRunsTheDecodedInstruction : Prop :=
  ∀ (s : State) (op : Operation) (rest : List Operation) (i : Instr),
    s.pending = op :: rest → decode op = .ok i → i.wf = true →
      step s = exec i { s with pending := rest }

/-- The model's own device `State.present` puts an operation in front of those that wait (assumption log 2; R12 has
operations applied in the order presented): after it, for any well-formed instruction's encoding, the very next step
is that instruction's effect on the state. -/
def Obligations.PresentedInstructionRuns : Prop :=
  ∀ (i : Instr) (s : State), i.wf = true → step (s.present (encode i)) = exec i s

/-- The model's own entry for a word of the opcode table (assumption log 5): the very next step runs the instruction
that `decodeTableWord` reads. -/
def Obligations.TableWordRunsNext : Prop :=
  ∀ (s : State) (nbits w : Nat) (i : Instr),
    decodeTableWord nbits w = some i → step (s.withFetchWord nbits w) = exec i s

/-- The model's choice for an idle block (R93, assumption log 2): a step with nothing presented changes nothing. -/
def Obligations.IdleStepKeepsAllState : Prop :=
  ∀ s : State, s.pending = [] → step s = .next s

/-- R12, R16: a step takes the first waiting operation off its port and no other. With nothing waiting it takes none
(the idle step, assumption log 2). What the operation taken does is StepRunsTheDecodedInstruction's,
IllegalWordRaisesIllegalCommand's and ReservedHostWordIsIgnored's to say. -/
def Obligations.StepTakesOneOperationInOrder : Prop :=
  ∀ s t : State, step s = .next t → t.pending = s.pending.tail

/-- R25: every operation answers, a command with a command response and a host operation with a host word. -/
def Obligations.EveryOperationAnswersOnItsPort : Prop :=
  ∀ (s t : State) (rest : List Operation), step s = .next t →
    (∀ w, s.pending = .command w :: rest → ∃ r, t.response = some (.command r)) ∧
    (∀ w payload, s.pending = .host w payload :: rest → ∃ v, t.response = some (.host v))

/-- R60, R79, R81: an illegal command word in the running state raises IllegalCommand: CODE becomes 7, the response
is (7, 0, 0, []), `err` rises, and nothing else changes. -/
def Obligations.IllegalWordRaisesIllegalCommand : Prop :=
  ∀ (s : State) (w : Word) (rest : List Operation),
    IllegalWord w → s.pending = .command w :: rest → s.statusCode = 0 →
      ∃ t, step s = .next t ∧ t.err = true ∧
        t = { s with pending := rest, statusCode := 7, response := some (.command ⟨7, 0, 0, []⟩) }

/-- R61: a reserved host word changes no state, its payload is discarded and the response word is 0. -/
def Obligations.ReservedHostWordIsIgnored : Prop :=
  ∀ (s : State) (w : Word) (payload : List Byte) (rest : List Operation),
    ReservedHostWord w → s.pending = .host w payload :: rest →
      step s = .next { s with pending := rest, response := some (.host 0) }

/-- R82: in the error state every command word, legal or not, changes nothing and answers with the recorded code. -/
def Obligations.ErrorStateIsTerminalForCommands : Prop :=
  ∀ (s : State) (w : Word) (rest : List Operation),
    s.pending = .command w :: rest → s.statusCode ≠ 0 →
      step s = .next
        { s with pending := rest, response := some (.command ⟨s.statusCode, 0, 0, []⟩) }

/-- R76, R83: a step that leaves the error state took a RESET or a LOAD word from the host port; and RESET, or a LOAD
of a payload that is not too long, does leave it. -/
def Obligations.OnlyResetAndLoadLeaveTheErrorState : Prop :=
  (∀ s t : State, step s = .next t → s.statusCode ≠ 0 → t.statusCode = 0 →
    ∃ payload rest, s.pending = .host 0x00000000#32 payload :: rest ∨
      s.pending = .host 0x10000000#32 payload :: rest) ∧
  (∀ s : State, ∃ t, exec .reset s = .next t ∧ t.statusCode = 0) ∧
  (∀ (s : State) (data : List Byte), data.length ≤ s.cfg.maxLenBytes.val →
    ∃ t, exec (.load data) s = .next t ∧ t.statusCode = 0)

/-- R81: an error a command raises is precise: CODE becomes 5 or 7, the response is (CODE, 0, 0, []), and BUF, LEN,
POS and everything else stand. -/
def Obligations.ErrorEntryIsPrecise : Prop :=
  ∀ (s t : State) (w : Word) (rest : List Operation),
    s.pending = .command w :: rest → step s = .next t → s.statusCode = 0 → t.statusCode ≠ 0 →
      (t.statusCode = 5 ∨ t.statusCode = 7) ∧
      t = { s with pending := rest, statusCode := t.statusCode,
                   response := some (.command ⟨t.statusCode, 0, 0, []⟩) }

/-- R77, R80: the block itself puts only 0, 5 or 7 into CODE, from whatever state. -/
def Obligations.BlockProducesOnlyItsCodes : Prop :=
  ∀ s t : State, step s = .next t → t.statusCode ≠ s.statusCode →
    t.statusCode = 0 ∨ t.statusCode = 5 ∨ t.statusCode = 7

/-- R6, R12: no step changes the parameters of the machine (the model's own field, assumption log 1). -/
def Obligations.StepKeepsTheParameters : Prop :=
  ∀ s t : State, step s = .next t → t.cfg = s.cfg

/-! ## READ and PEEK -/

/-- R64: READ n, with its encoding, its sticky check, TruncatedStream exactly when n > R, and otherwise the n bits
from POS on as a number (R31, R32) and POS moved past them. -/
def Obligations.ReadFollowsItsRule : Prop :=
  ∀ (n : BitVec 6) (s : State), n.toNat ≤ 32 → Inv s →
    decode (.command (0x10000000#32 ||| n.setWidth 32)) = .ok (.read n) ∧
    (s.statusCode ≠ 0 →
      exec (.read n) s = .next { s with response := some (.command ⟨s.statusCode, 0, 0, []⟩) }) ∧
    (s.statusCode = 0 → n.toNat > 8 * s.len.toNat - s.pos.toNat →
      exec (.read n) s = .next { s with statusCode := 5, response := some (.command ⟨5, 0, 0, []⟩) }) ∧
    (s.statusCode = 0 → n.toNat ≤ 8 * s.len.toNat - s.pos.toNat →
      ∃ (t : State) (v : Word), exec (.read n) s = .next t ∧
        t = { s with pos := t.pos, response := some (.command ⟨0, v, 0, []⟩) } ∧
        t.pos.toNat = s.pos.toNat + n.toNat ∧
        v.toNat = ∑ i ∈ Finset.range n.toNat, s.streamBit (s.pos.toNat + i) * 2 ^ (n.toNat - 1 - i))

/-- R65: PEEK n, with its encoding: the a = min(n, R) bits available, left-aligned in n bits with zeros below, and a
in `avail`; POS, LEN, STATUS and everything but the response unchanged. -/
def Obligations.PeekFollowsItsRule : Prop :=
  ∀ (n : BitVec 6) (s : State), n.toNat ≤ 32 → Inv s →
    decode (.command (0x20000000#32 ||| n.setWidth 32)) = .ok (.peek n) ∧
    (s.statusCode ≠ 0 →
      exec (.peek n) s = .next { s with response := some (.command ⟨s.statusCode, 0, 0, []⟩) }) ∧
    (s.statusCode = 0 →
      ∃ (v : Word) (a : BitVec 6),
        exec (.peek n) s = .next { s with response := some (.command ⟨0, v, a, []⟩) } ∧
        a.toNat = min n.toNat (8 * s.len.toNat - s.pos.toNat) ∧
        v.toNat = (∑ i ∈ Finset.range a.toNat, s.streamBit (s.pos.toNat + i) * 2 ^ (a.toNat - 1 - i)) *
          2 ^ (n.toNat - a.toNat))

/-- R31: stream bit p is bit `7 - (p mod 8)` of byte `p div 8`. -/
def Obligations.StreamBitsAreMostSignificantFirst : Prop :=
  ∀ (s : State) (p : Nat) (b : Byte), s.readByte (p / 8) = some b →
    s.streamBit p = b.toNat / 2 ^ (7 - p % 8) % 2

/-- R66: the value a READ n or PEEK n returns is below 2^n, from any state. -/
def Obligations.ReadValuesFitTheirCount : Prop :=
  ∀ (n : BitVec 6) (s t : State) (r : CmdResponse), n.toNat ≤ 32 →
    exec (.read n) s = .next t ∨ exec (.peek n) s = .next t → t.response = some (.command r) →
      r.value.toNat < 2 ^ n.toNat

/-- R33: a READ of 8k bits (k = 1..4) at a byte-aligned POS returns the k bytes there as a big-endian number. -/
def Obligations.AlignedReadIsBigEndian : Prop :=
  ∀ (s : State) (k : Nat), Inv s → s.statusCode = 0 → 1 ≤ k → k ≤ 4 → s.pos.toNat % 8 = 0 →
    s.pos.toNat / 8 + k ≤ s.len.toNat →
      ∃ (t : State) (v : Word) (bytes : List Byte), exec (.read (BitVec.ofNat 6 (8 * k))) s = .next t ∧
        t.response = some (.command ⟨0, v, 0, []⟩) ∧
        s.memRead (s.pos.toNat / 8) k = some bytes ∧
        v.toNat = ∑ j ∈ Finset.range k, (bytes.getD j 0).toNat * 2 ^ (8 * (k - 1 - j))

/-- R34: reads of different widths over the same bits see the same bits in the same order: on `Bits`, and for two READs
against one. -/
def Obligations.SplitReadsSeeTheSameBits : Prop :=
  (∀ (s : State) (p n m : Nat), p + (n + m) ≤ 8 * s.len.toNat →
    ∃ v w, s.bits p n = some v ∧ s.bits (p + n) m = some w ∧ s.bits p (n + m) = some (v * 2 ^ m + w)) ∧
  (∀ (s : State) (n m : Nat), Inv s → s.statusCode = 0 → n + m ≤ 32 →
    s.pos.toNat + (n + m) ≤ 8 * s.len.toNat →
      ∃ (a b c : Word) (t u : State),
        issue [.read (BitVec.ofNat 6 n), .read (BitVec.ofNat 6 m)] s =
          some ([.command ⟨0, a, 0, []⟩, .command ⟨0, b, 0, []⟩], t) ∧
        issue [.read (BitVec.ofNat 6 (n + m))] s = some ([.command ⟨0, c, 0, []⟩], u) ∧
        c.toNat = a.toNat * 2 ^ m + b.toNat ∧ u.pos = t.pos)

/-- R67: in the running state, PEEK n with n <= R followed by READ n gives the same value in both responses, and the
PEEK leaves the state as it found it. -/
def Obligations.PeekThenReadAgree : Prop :=
  ∀ (n : BitVec 6) (s : State), Inv s → s.statusCode = 0 → n.toNat ≤ 32 →
    n.toNat ≤ 8 * s.len.toNat - s.pos.toNat →
      ∃ (v : Word) (t u : State), exec (.peek n) s = .next t ∧
        t = { s with response := some (.command ⟨0, v, n, []⟩) } ∧
        exec (.read n) t = .next u ∧ u.response = some (.command ⟨0, v, 0, []⟩)

/-- R65, R101: the top `avail` bits of a PEEK's value are what a READ of `avail` bits returns, which succeeds, and the
bits below are 0, however short the PEEK was. -/
def Obligations.ShortPeekHoldsTheReadableBits : Prop :=
  ∀ (n : BitVec 6) (s : State), Inv s → s.statusCode = 0 → n.toNat ≤ 32 →
    ∃ (v w : Word) (a : BitVec 6) (t u : State), exec (.peek n) s = .next t ∧
      t.response = some (.command ⟨0, v, a, []⟩) ∧ a.toNat ≤ n.toNat ∧
      exec (.read a) t = .next u ∧ u.response = some (.command ⟨0, w, 0, []⟩) ∧
      v.toNat = w.toNat * 2 ^ (n.toNat - a.toNat)

/-! ## EXHAUSTED -/

/-- R68: EXHAUSTED, with its encoding: 1 when POS is 8*LEN, else 0; nothing but the response changes. -/
def Obligations.ExhaustedFollowsItsRule : Prop :=
  ∀ s : State,
    decode (.command 0x30000000#32) = .ok .exhausted ∧
    (s.statusCode ≠ 0 →
      exec .exhausted s = .next { s with response := some (.command ⟨s.statusCode, 0, 0, []⟩) }) ∧
    (s.statusCode = 0 → s.pos.toNat = 8 * s.len.toNat →
      exec .exhausted s = .next { s with response := some (.command ⟨0, 1, 0, []⟩) }) ∧
    (s.statusCode = 0 → s.pos.toNat ≠ 8 * s.len.toNat →
      exec .exhausted s = .next { s with response := some (.command ⟨0, 0, 0, []⟩) })

/-- R69: what EXHAUSTED's answer says of the commands after it. -/
def Obligations.ExhaustedPredictsTheNextCommand : Prop :=
  ∀ (s e : State), Inv s → exec .exhausted s = .next e →
    (e.response = some (.command ⟨0, 1, 0, []⟩) →
      (∀ n : BitVec 6, 1 ≤ n.toNat → n.toNat ≤ 32 → ∃ t, exec (.read n) e = .next t ∧ t.statusCode = 5) ∧
      (∃ t, exec (.read 0) e = .next t ∧ t.statusCode = 0) ∧
      (∀ n : BitVec 6, n.toNat ≤ 32 →
        ∃ t, exec (.peek n) e = .next t ∧ t.response = some (.command ⟨0, 0, 0, []⟩)) ∧
      (∃ t, exec (.readb 0) e = .next t ∧ t.statusCode = 0) ∧
      (∀ k : BitVec 28, 1 ≤ k.toNat → ∃ t, exec (.readb k) e = .next t ∧ t.statusCode = 5)) ∧
    (e.response = some (.command ⟨0, 0, 0, []⟩) → ∃ t, exec (.read 1) e = .next t ∧ t.statusCode = 0)

/-! ## READB -/

/-- R70: READB k, with its encoding: TruncatedStream exactly when fewer than k whole bytes lie after the alignment
skip (the sum taken on naturals, R66); otherwise the k bytes at the boundary, in order, and POS past them. -/
def Obligations.ReadbFollowsItsRule : Prop :=
  ∀ (k : BitVec 28) (s : State) (skip : Nat), Inv s → skip = (8 - s.pos.toNat % 8) % 8 →
    decode (.command (0x40000000#32 ||| k.setWidth 32)) = .ok (.readb k) ∧
    (s.statusCode ≠ 0 →
      exec (.readb k) s = .next { s with response := some (.command ⟨s.statusCode, 0, 0, []⟩) }) ∧
    (s.pos.toNat + skip + 8 * k.toNat > 8 * s.len.toNat ↔
      k.toNat > s.len.toNat - (s.pos.toNat + skip) / 8) ∧
    (s.statusCode = 0 → s.pos.toNat + skip + 8 * k.toNat > 8 * s.len.toNat →
      exec (.readb k) s = .next { s with statusCode := 5, response := some (.command ⟨5, 0, 0, []⟩) }) ∧
    (s.statusCode = 0 → s.pos.toNat + skip + 8 * k.toNat ≤ 8 * s.len.toNat →
      ∃ (t : State) (bytes : List Byte), exec (.readb k) s = .next t ∧
        t = { s with pos := t.pos, response := some (.command ⟨0, 0, 0, bytes⟩) } ∧
        t.pos.toNat = s.pos.toNat + skip + 8 * k.toNat ∧ bytes.length = k.toNat ∧
        ∀ i, i < k.toNat → bytes[i]? = s.readByte ((s.pos.toNat + skip) / 8 + i))

/-- R71: READB 0 never raises TruncatedStream: it moves POS to the next multiple of 8, inside the stream. -/
def Obligations.AlignNeverTruncates : Prop :=
  ∀ s : State, Inv s → s.statusCode = 0 →
    ∃ t, exec (.readb 0) s = .next t ∧ t.statusCode = 0 ∧
      t.pos.toNat = s.pos.toNat + alignSkip s.pos.toNat ∧ t.pos.toNat % 8 = 0 ∧
      t.pos.toNat ≤ 8 * s.len.toNat

/-- R44, R72: a READB delivers all its bytes or none, and where it delivers none of a non-empty block nothing but
STATUS and the response has changed. -/
def Obligations.ReadbIsAllOrNothing : Prop :=
  ∀ (k : BitVec 28) (s t : State), exec (.readb k) s = .next t →
    ∃ r, t.response = some (.command r) ∧
      (r.status = 0 ∧ r.bytes.length = k.toNat ∨
        r.status ≠ 0 ∧ r.bytes = [] ∧
          t = { s with statusCode := t.statusCode, response := t.response })

/-- R40: READB does not look at the bits it skips: two states alike but for bytes before the boundary answer
alike. -/
def Obligations.ReadbIgnoresSkippedBits : Prop :=
  ∀ (k : BitVec 28) (s t s' : State), Inv s → Inv t → t.len = s.len → t.pos = s.pos → t.statusCode = s.statusCode →
    (∀ a, s.pos.toNat + alignSkip s.pos.toNat ≤ 8 * a → t.readByte a = s.readByte a) →
    exec (.readb k) s = .next s' →
      ∃ t', exec (.readb k) t = .next t' ∧ t'.response = s'.response ∧ t'.pos = s'.pos ∧
        t'.statusCode = s'.statusCode

/-- R34, R70: from a byte-aligned POS, READB k returns the values of k READs of 8 bits, and leaves POS where they
leave it. -/
def Obligations.ReadbEqualsByteReads : Prop :=
  ∀ (k : BitVec 28) (s : State), Inv s → s.statusCode = 0 → s.pos.toNat % 8 = 0 →
    s.pos.toNat + 8 * k.toNat ≤ 8 * s.len.toNat →
      ∃ (bytes : List Byte) (t u : State), exec (.readb k) s = .next t ∧
        t.response = some (.command ⟨0, 0, 0, bytes⟩) ∧
        issue (List.replicate k.toNat (.read 8)) s =
          some (bytes.map fun b => .command ⟨0, b.setWidth 32, 0, []⟩, u) ∧
        u.pos = t.pos

/-! ## Host operations -/

/-- R73, R94: RESET, with its encoding: from any state BUF is empty, LEN, POS and STATUS are 0 and the response word
is 0, which is the state at power-on. -/
def Obligations.ResetReturnsToPowerOn : Prop :=
  decode (.host 0x00000000#32 []) = .ok .reset ∧
  ∀ s : State, ∃ t, exec .reset s = .next t ∧
    t = { s with buf := [], len := 0, pos := 0, statusCode := 0, response := some (.host 0) } ∧
    t.buf = State.reset.buf ∧ t.len = State.reset.len ∧ t.pos = State.reset.pos ∧
    t.statusCode = State.reset.statusCode

/-- R74: LOAD, with its encoding. A payload of at most MAX_LEN_BYTES becomes the stream: offset a reads as byte a of
it and no other offset exists, LEN is its length, POS and STATUS are 0, the response word is 0, whatever the state
was. A longer one empties the block, sets CODE to 7 and answers 7. -/
def Obligations.LoadFollowsItsRule : Prop :=
  ∀ (data : List Byte) (s : State),
    decode (.host 0x10000000#32 data) = .ok (.load data) ∧
    (data.length ≤ s.cfg.maxLenBytes.val →
      ∃ t, exec (.load data) s = .next t ∧ (∀ a, t.readByte a = data[a]?) ∧ t.len.toNat = data.length ∧
        t = { s with buf := t.buf, len := t.len, pos := 0, statusCode := 0, response := some (.host 0) }) ∧
    (data.length > s.cfg.maxLenBytes.val →
      exec (.load data) s = .next
        { s with buf := [], len := 0, pos := 0, statusCode := 7, response := some (.host 7) })

/-- R21, R75: READ_REG, with its encoding, in every state: STATUS (CODE below 28 zeros), POS, LEN, and 0 for the
reserved numbers; nothing but the response changes. -/
def Obligations.ReadRegFollowsItsRule : Prop :=
  ∀ (r : BitVec 4) (s : State),
    decode (.host (0x20000000#32 ||| r.setWidth 32) []) = .ok (.readReg r) ∧
    ∃ v : Word, exec (.readReg r) s = .next { s with response := some (.host v) } ∧
      (r.toNat = 0 → v.toNat = s.statusCode.toNat) ∧ (r.toNat = 1 → v = s.pos) ∧
      (r.toNat = 2 → v = s.len) ∧ (3 ≤ r.toNat → v = 0)

/-! ## Frames and what the responses depend on -/

/-- R18, R45: no command and no READ_REG changes a byte of BUF, LEN or the parameters, or takes an operation; PEEK,
EXHAUSTED and READ_REG leave POS too; and READ_REG, which answers on the host port, leaves STATUS. -/
def Obligations.OnlyResetAndLoadTouchTheStream : Prop :=
  ∀ (i : Instr) (s t : State), exec i s = .next t → i ≠ .reset → (∀ d, i ≠ .load d) →
    StreamKept s t ∧ t.buf = s.buf ∧ t.pending = s.pending ∧
    ((∀ n, i ≠ .read n) → (∀ k, i ≠ .readb k) → t.pos = s.pos) ∧
    ((∃ r, i = .readReg r) → t.statusCode = s.statusCode)

/-- R17, R20: no command moves POS backwards or past the end. -/
def Obligations.CommandsMovePosForwardOnly : Prop :=
  ∀ (i : Instr) (s t : State), Inv s → i.isCommand = true → exec i s = .next t →
    s.pos.toNat ≤ t.pos.toNat ∧ t.pos.toNat ≤ 8 * t.len.toNat

/-- R45: a PEEK, or an EXHAUSTED, repeated leaves exactly the state the first one left. -/
def Obligations.PeekAndExhaustedAreIdempotent : Prop :=
  ∀ (i : Instr) (s t : State), (∃ n : BitVec 6, n.toNat ≤ 32 ∧ i = .peek n) ∨ i = .exhausted →
    exec i s = .next t → exec i t = .next t

/-- R14: no rule reads the last response, nor what waits on the ports. -/
def Obligations.NoMeaningReadsTheOutputs : Prop :=
  ∀ (i : Instr) (s t : State) (r : Option Response) (ops : List Operation), exec i s = .next t →
    exec i { s with response := r, pending := ops } = .next { t with pending := ops }

/-- R24, R27: a command sees nothing of the stream but the bits from POS on: two states with the same LEN, POS, CODE
and unread bits give every command the same response, POS and CODE. -/
def Obligations.CommandsSeeOnlyUnreadBits : Prop :=
  ∀ (i : Instr) (s t s' : State), Inv s → Inv t → SameUnread s t → i.isCommand = true → exec i s = .next s' →
    ∃ t', exec i t = .next t' ∧ t'.response = s'.response ∧ SameUnread s' t'

/-! ## Invariants -/

/-- R95: the state after reset: no byte exists, every register is 0, `err` is 0 and STATUS reads 0. -/
def Obligations.ResetStateHoldsTheResetValues : Prop :=
  State.reset.len = 0 ∧ State.reset.pos = 0 ∧ State.reset.statusCode = 0 ∧ State.reset.err = false ∧
  State.reset.statusReg = 0 ∧ State.reset.buf = [] ∧ ∀ a, State.reset.readByte a = none

/-- The state after reset keeps the invariant and the law of responses. -/
def Obligations.ResetStateMeetsTheInvariants : Prop := Inv State.reset ∧ ResponseInv State.reset

/-- R18 to R21: every step from a state that keeps the invariant keeps it: LEN <= MAX_LEN_BYTES, POS <= 8*LEN, CODE in
0, 5, 7, and BUF in canonical form with no byte at or above LEN. -/
def Obligations.EveryStepKeepsTheInvariant : Prop :=
  ∀ s t : State, Inv s → step s = .next t → Inv t

/-- R25: every step keeps the law of responses, from any state. -/
def Obligations.EveryStepKeepsTheResponseLaw : Prop :=
  ∀ s t : State, ResponseInv s → step s = .next t → ResponseInv t

/-- R104, R28: from a state that keeps the invariant every step completes: no operation, however malformed, faults, is
refused, or reads outside the stream. With nothing presented it completes as the idle step (assumption log 2). -/
def Obligations.EveryOperationCompletes : Prop :=
  ∀ s : State, Inv s → ∃ t, step s = .next t

/-- R6: a legal MAX_LEN_BYTES lets every bit position fit the 32-bit POS, and the default is 2^29 - 1. -/
def Obligations.ParameterLetsPositionsFit : Prop :=
  (∀ c : Config, 8 * c.maxLenBytes.val ≤ 2 ^ 32 - 1) ∧ Config.specDefault.maxLenBytes.val = 2 ^ 29 - 1

/-! ## The writer's layout -/

/-- R36: writing N bits of V appends V's bits N-1 down to 0 and nothing else; only the low N bits of V matter. -/
def Obligations.WriterAppendsTheLowBits : Prop :=
  ∀ (bits : List Bool) (n : BitVec 6) (v : Nat),
    (∃ new, Writer.append bits (.bits n v) = bits ++ new ∧ new.length = n.toNat ∧
      ∀ i, i < n.toNat → new[i]? = some (v.testBit (n.toNat - 1 - i))) ∧
    Writer.append bits (.bits n v) = Writer.append bits (.bits n (v % 2 ^ n.toNat))

/-- R37: a byte-block write appends `(8 - count mod 8) mod 8` bits of value 0, and then each byte of the block, bit 7
first (R36 at N = 8). An empty block still pads. -/
def Obligations.BlockWritePadsWithZerosToAByte : Prop :=
  ∀ (bits : List Bool) (data : List Byte),
    Writer.append bits (.block data) =
      bits ++ List.replicate ((8 - bits.length % 8) % 8) false ++
        data.flatMap fun b => (List.range 8).map fun i => b.getLsbD (7 - i)

/-- R38: the finished stream is a whole number of bytes that holds, under R31, the written bits and then 0 bits, at
most 7 of them. -/
def Obligations.FinishedStreamHoldsTheWrittenBits : Prop :=
  ∀ (fields : List WriterField) (s t : State),
    (Writer.finish fields).length ≤ s.cfg.maxLenBytes.val →
    exec (.load (Writer.finish fields)) s = .next t →
      (Writer.written fields).length ≤ t.bitLen ∧ t.bitLen ≤ (Writer.written fields).length + 7 ∧
      ∀ p, p < t.bitLen → t.streamBit p = ((Writer.written fields).getD p false).toNat

/-- R39: what a writer wrote, the block reads back: after LOAD of the finished stream, the READs and READBs of the
same lengths answer, in order, `v mod 2^n` and the block's bytes; POS then stands right behind the written bits, and
`8*LEN - POS` is the number of padding bits R38 added, between 0 and 7. -/
def Obligations.WriterRoundTrip : Prop :=
  ∀ (fields : List WriterField) (s t : State), (∀ f ∈ fields, f.legal = true) →
    (Writer.finish fields).length ≤ s.cfg.maxLenBytes.val →
    exec (.load (Writer.finish fields)) s = .next t →
      ∃ u, issue (fields.map WriterField.command) t =
          some (fields.map fun f => .command f.expected, u) ∧
        u.pos.toNat = (Writer.written fields).length ∧
        8 * u.len.toNat = u.pos.toNat + (8 - (Writer.written fields).length % 8) % 8 ∧
        8 * u.len.toNat - u.pos.toNat ≤ 7

/-! ## The assembler -/

/-- R62: whatever a line assembles to is well formed; and a READ, PEEK, READB or READ_REG line whose operand is a
number in range assembles to the instruction with that very operand, and is refused when the number is above what its
field admits (n > 32, k > 2^28 - 1, r > 15). How a line is cut into tokens, and the refusal of a register number above
15, are the model's choice (assumption log 7). -/
def Obligations.AssembledLinesAreWellFormed : Prop :=
  (∀ (line : List Char) (i : Instr), assembleLine line = .ok (some i) → i.wf = true) ∧
  ∀ (line text : List Char) (v : Nat), parseNumber text = some v →
    (tokens line [] = [['R', 'E', 'A', 'D'], text] →
      (v ≤ 32 → ∃ n : BitVec 6, n.toNat = v ∧ assembleLine line = .ok (some (.read n))) ∧
      (v > 32 → assembleLine line = .error .operandRange)) ∧
    (tokens line [] = [['P', 'E', 'E', 'K'], text] →
      (v ≤ 32 → ∃ n : BitVec 6, n.toNat = v ∧ assembleLine line = .ok (some (.peek n))) ∧
      (v > 32 → assembleLine line = .error .operandRange)) ∧
    (tokens line [] = [['R', 'E', 'A', 'D', 'B'], text] →
      (v ≤ 2 ^ 28 - 1 → ∃ k : BitVec 28, k.toNat = v ∧ assembleLine line = .ok (some (.readb k))) ∧
      (v > 2 ^ 28 - 1 → assembleLine line = .error .operandRange)) ∧
    (tokens line [] = [['R', 'E', 'A', 'D', '_', 'R', 'E', 'G'], text] →
      (v ≤ 15 → ∃ r : BitVec 4, r.toNat = v ∧ assembleLine line = .ok (some (.readReg r))) ∧
      (v > 15 → assembleLine line = .error .operandRange))

/-- R62, R63: a line whose first token is none of the mnemonics and pseudo-instructions is refused, whatever follows.
How a line is cut into tokens is the model's choice (assumption log 7). -/
def Obligations.OtherMnemonicsAreRefused : Prop :=
  ∀ (line m : List Char) (rest : List (List Char)), tokens line [] = m :: rest →
    m ∉ [['R', 'E', 'A', 'D'], ['P', 'E', 'E', 'K'], ['E', 'X', 'H', 'A', 'U', 'S', 'T', 'E', 'D'],
      ['R', 'E', 'A', 'D', 'B'], ['R', 'E', 'S', 'E', 'T'], ['L', 'O', 'A', 'D'],
      ['R', 'E', 'A', 'D', '_', 'R', 'E', 'G'], ['A', 'L', 'I', 'G', 'N'], ['S', 'K', 'I', 'P'],
      ['R', 'E', 'A', 'D', '_', 'B', 'E']] →
      assembleLine line = .error .unknownLine

/-- R63: the pseudo-instructions and their expansions, at every legal operand. -/
def Obligations.PseudoInstructionsExpand : Prop :=
  assembleBare ['A', 'L', 'I', 'G', 'N'] = .ok (.readb 0) ∧
  encode (.readb 0) = .command 0x40000000#32 ∧
  (∀ text n, parseNumber text = some n → n ≤ 32 →
    assembleUnary ['S', 'K', 'I', 'P'] text = .ok (.read (BitVec.ofNat 6 n))) ∧
  (∀ text k, parseNumber text = some k → 1 ≤ k → k ≤ 4 →
    assembleUnary ['R', 'E', 'A', 'D', '_', 'B', 'E'] text = .ok (.read (BitVec.ofNat 6 (8 * k))))
end

