-- ==== Sys2Proof/Laws/State.lean ====
section
/-! SUPPORT. What each update of the state does to each field: one lemma per field per update. -/

namespace Sys2Proof.Machine

variable (s : State)

/-! ## respond -/

section respond
variable (c : BitVec 4) (v : Word) (a : BitVec 6) (bs : List Byte)

@[simp] theorem State.respond_buf : (s.respond c v a bs).buf = s.buf := rfl
@[simp] theorem State.respond_len : (s.respond c v a bs).len = s.len := rfl
@[simp] theorem State.respond_pos : (s.respond c v a bs).pos = s.pos := rfl
@[simp] theorem State.respond_statusCode : (s.respond c v a bs).statusCode = s.statusCode := rfl
@[simp] theorem State.respond_cfg : (s.respond c v a bs).cfg = s.cfg := rfl
@[simp] theorem State.respond_pending : (s.respond c v a bs).pending = s.pending := rfl
@[simp] theorem State.respond_response : (s.respond c v a bs).response = some (.command ⟨c, v, a, bs⟩) := rfl
@[simp] theorem State.respond_readByte (x : Nat) : (s.respond c v a bs).readByte x = s.readByte x := rfl
@[simp] theorem State.respond_bitLen : (s.respond c v a bs).bitLen = s.bitLen := rfl

end respond

/-! ## respondHost -/

section respondHost
variable (w : Word)

@[simp] theorem State.respondHost_buf : (s.respondHost w).buf = s.buf := rfl
@[simp] theorem State.respondHost_len : (s.respondHost w).len = s.len := rfl
@[simp] theorem State.respondHost_pos : (s.respondHost w).pos = s.pos := rfl
@[simp] theorem State.respondHost_statusCode : (s.respondHost w).statusCode = s.statusCode := rfl
@[simp] theorem State.respondHost_cfg : (s.respondHost w).cfg = s.cfg := rfl
@[simp] theorem State.respondHost_pending : (s.respondHost w).pending = s.pending := rfl
@[simp] theorem State.respondHost_response : (s.respondHost w).response = some (.host w) := rfl
@[simp] theorem State.respondHost_readByte (x : Nat) : (s.respondHost w).readByte x = s.readByte x := rfl
@[simp] theorem State.respondHost_bitLen : (s.respondHost w).bitLen = s.bitLen := rfl

end respondHost

/-! ## setPos -/

section setPos
variable (p : Nat)

@[simp] theorem State.setPos_buf : (s.setPos p).buf = s.buf := rfl
@[simp] theorem State.setPos_len : (s.setPos p).len = s.len := rfl
@[simp] theorem State.setPos_pos : (s.setPos p).pos = BitVec.ofNat 32 p := rfl
@[simp] theorem State.setPos_statusCode : (s.setPos p).statusCode = s.statusCode := rfl
@[simp] theorem State.setPos_cfg : (s.setPos p).cfg = s.cfg := rfl
@[simp] theorem State.setPos_pending : (s.setPos p).pending = s.pending := rfl
@[simp] theorem State.setPos_response : (s.setPos p).response = s.response := rfl
@[simp] theorem State.setPos_readByte (x : Nat) : (s.setPos p).readByte x = s.readByte x := rfl
@[simp] theorem State.setPos_bitLen : (s.setPos p).bitLen = s.bitLen := rfl

end setPos

/-! ## raise -/

section raise
variable (e : StatusCode)

@[simp] theorem State.raise_buf : (s.raise e).buf = s.buf := rfl
@[simp] theorem State.raise_len : (s.raise e).len = s.len := rfl
@[simp] theorem State.raise_pos : (s.raise e).pos = s.pos := rfl
@[simp] theorem State.raise_statusCode : (s.raise e).statusCode = e.number := rfl
@[simp] theorem State.raise_cfg : (s.raise e).cfg = s.cfg := rfl
@[simp] theorem State.raise_pending : (s.raise e).pending = s.pending := rfl
@[simp] theorem State.raise_response : (s.raise e).response = some (.command ⟨e.number, 0, 0, []⟩) := rfl
@[simp] theorem State.raise_readByte (x : Nat) : (s.raise e).readByte x = s.readByte x := rfl
@[simp] theorem State.raise_bitLen : (s.raise e).bitLen = s.bitLen := rfl

end raise

/-! ## install -/

section install
variable (data : List Byte) (e : StatusCode)

@[simp] theorem State.install_buf : (s.install data e).buf = Memory.ofBytes data := rfl
@[simp] theorem State.install_len : (s.install data e).len = BitVec.ofNat 32 data.length := rfl
@[simp] theorem State.install_pos : (s.install data e).pos = 0 := rfl
@[simp] theorem State.install_statusCode : (s.install data e).statusCode = e.number := rfl
@[simp] theorem State.install_cfg : (s.install data e).cfg = s.cfg := rfl
@[simp] theorem State.install_pending : (s.install data e).pending = s.pending := rfl
@[simp] theorem State.install_response : (s.install data e).response = s.response := rfl

end install

/-! ## present and takeOperation -/

@[simp] theorem State.present_buf (op : Operation) : (s.present op).buf = s.buf := rfl
@[simp] theorem State.present_len (op : Operation) : (s.present op).len = s.len := rfl
@[simp] theorem State.present_pos (op : Operation) : (s.present op).pos = s.pos := rfl
@[simp] theorem State.present_statusCode (op : Operation) : (s.present op).statusCode = s.statusCode := rfl
@[simp] theorem State.present_cfg (op : Operation) : (s.present op).cfg = s.cfg := rfl
@[simp] theorem State.present_pending (op : Operation) : (s.present op).pending = op :: s.pending := rfl
@[simp] theorem State.present_response (op : Operation) : (s.present op).response = s.response := rfl

@[simp] theorem State.takeOperation_present (op : Operation) : (s.present op).takeOperation = some (op, s) := rfl

/-- Taking an operation takes the first one that waits, and changes nothing else. -/
theorem State.takeOperation_eq_some {s t : State} {op : Operation} (h : s.takeOperation = some (op, t)) :
    ∃ rest, s.pending = op :: rest ∧ t = { s with pending := rest } := by
  unfold State.takeOperation at h
  split at h
  · cases h
  · cases h
    exact ⟨_, ‹_›, rfl⟩

/-- The block is idle exactly when nothing waits. -/
theorem State.takeOperation_eq_none {s : State} : s.takeOperation = none ↔ s.pending = [] := by
  unfold State.takeOperation
  split <;> simp_all

/-! ## What is computed from the registers -/

@[simp] theorem State.isRunning_eq_true {s : State} : s.isRunning = true ↔ s.statusCode = 0#4 := by
  simp [State.isRunning]

@[simp] theorem State.isRunning_eq_false {s : State} : s.isRunning = false ↔ s.statusCode ≠ 0#4 := by
  simp [State.isRunning]

theorem State.remaining_eq (s : State) : s.remaining = 8 * s.len.toNat - s.pos.toNat := rfl

end Sys2Proof.Machine

/-- The parameters obey R6's constraint, so a bit position fits POS. -/
theorem Sys2Proof.Config.bits_lt (c : Sys2Proof.Config) : 8 * c.maxLenBytes.val < 2 ^ 32 := by
  have := c.maxLenBytes.isLt
  omega
end

