-- ==== Sys2Proof/Laws/Memory.lean ====
section
/-! SUPPORT. The stream buffer: its canonical form is kept by every operation on it, and what it reads as. -/

namespace Sys2Proof.Machine

/-- A canonical form from `lo` on is one from any lower offset on. -/
theorem Memory.wfFrom_mono {lo lo' : Nat} (h : lo' ≤ lo) {m : Memory} (hm : Memory.wfFrom lo m = true) :
    Memory.wfFrom lo' m = true := by
  cases m with
  | nil => rfl
  | cons c m =>
    simp only [Memory.wfFrom, Bool.and_eq_true, decide_eq_true_eq] at hm ⊢
    exact ⟨⟨by omega, hm.1.2⟩, hm.2⟩

/-- Every cell of a canonical form from `lo` on stands at or above `lo`. -/
theorem Memory.le_of_mem_wfFrom {lo : Nat} {m : Memory} (hm : Memory.wfFrom lo m = true) :
    ∀ c ∈ m, lo ≤ c.1 := by
  induction m generalizing lo with
  | nil => simp
  | cons d m ih =>
    simp only [Memory.wfFrom, Bool.and_eq_true, decide_eq_true_eq] at hm
    intro c hc
    rcases List.mem_cons.mp hc with rfl | hc
    · exact hm.1.1
    · have := ih hm.2 c hc; omega

theorem Memory.wfFrom_ofBytesFrom (a : Nat) (data : List Byte) :
    Memory.wfFrom a (Memory.ofBytesFrom a data) = true := by
  induction data generalizing a with
  | nil => rfl
  | cons b bs ih =>
    unfold Memory.ofBytesFrom
    split
    · exact Memory.wfFrom_mono (Nat.le_succ a) (ih (a + 1))
    · simp_all [Memory.wfFrom]

/-- LOAD's copy of its payload is in canonical form. -/
theorem Memory.wf_ofBytes (data : List Byte) : (Memory.ofBytes data).wf = true :=
  Memory.wfFrom_ofBytesFrom 0 data

/-- The empty buffer, RESET's, is in canonical form. -/
theorem Memory.wf_nil : Memory.wf [] = true := rfl

/-- The buffer at reset is in canonical form. -/
theorem State.reset_buf_wf : State.reset.buf.wf = true := rfl

theorem Memory.mem_ofBytesFrom {a : Nat} {data : List Byte} :
    ∀ c ∈ Memory.ofBytesFrom a data, a ≤ c.1 ∧ c.1 < a + data.length := by
  induction data generalizing a with
  | nil => simp [Memory.ofBytesFrom]
  | cons b bs ih =>
    intro c hc
    unfold Memory.ofBytesFrom at hc
    split at hc
    · have := ih c hc; simp; omega
    · rcases List.mem_cons.mp hc with rfl | hc
      · simp
      · have := ih c hc; simp; omega

/-- LOAD's copy has no cell outside the payload's offsets. -/
theorem Memory.lt_of_mem_ofBytes {data : List Byte} {c : Host.Cell} (h : c ∈ Memory.ofBytes data) :
    c.1 < data.length := by
  have := Memory.mem_ofBytesFrom c h; omega

theorem Memory.read_of_lt {lo x : Nat} {m : Memory} (hm : ∀ c ∈ m, lo ≤ c.1) (hx : x < lo) :
    m.read x = unlistedByte := by
  induction m with
  | nil => rfl
  | cons c m ih =>
    have hc := hm c (by simp)
    have : c.1 ≠ x := by omega
    obtain ⟨a, b⟩ := c
    simp only [Memory.read]
    rw [if_neg this]
    exact ih fun d hd => hm d (by simp [hd])

theorem Memory.read_ofBytesFrom (a i : Nat) (data : List Byte) :
    (Memory.ofBytesFrom a data).read (a + i) = data.getD i unlistedByte := by
  induction data generalizing a i with
  | nil => simp [Memory.ofBytesFrom, Memory.read]
  | cons b bs ih =>
    have hlow : (Memory.ofBytesFrom (a + 1) bs).read a = unlistedByte :=
      Memory.read_of_lt (lo := a + 1) (fun c hc => (Memory.mem_ofBytesFrom c hc).1) (by omega)
    unfold Memory.ofBytesFrom
    cases i with
    | zero => split <;> simp_all [Memory.read]
    | succ i =>
      have := ih (a + 1) i
      rw [show a + 1 + i = a + (i + 1) by omega] at this
      split
      · simpa using this
      · simp only [Memory.read]
        rw [if_neg (by omega)]
        simpa using this

/-- LOAD's copy holds the payload: offset `i` reads as byte `i` of it (R29, R74). -/
theorem Memory.read_ofBytes (i : Nat) (data : List Byte) :
    (Memory.ofBytes data).read i = data.getD i unlistedByte := by
  have := Memory.read_ofBytesFrom 0 i data
  simpa [Memory.ofBytes] using this

end Sys2Proof.Machine
end

