-- ==== Sys2Proof/Laws/Ops.lean ====
section
/-! SUPPORT. For each shared operation, once, all it can do. -/

namespace Sys2Proof.Machine

/-! ## The stream primitives -/

theorem State.bits_of_le {s : State} {p n : Nat} (h : p + n ≤ s.bitLen) : s.bits p n = some (s.bitsFrom p n) :=
  if_pos h

/-- `Bits` answers only inside the stream, and then with the bits from `p` on. -/
theorem State.bits_eq_some {s : State} {p n v : Nat} (h : s.bits p n = some v) :
    p + n ≤ s.bitLen ∧ v = s.bitsFrom p n := by
  unfold State.bits at h
  split at h
  · exact ⟨‹_›, (Option.some.inj h).symm⟩
  · cases h

theorem State.memRead_of_le {s : State} {addr n : Nat} (h : addr + n ≤ s.len.toNat) :
    s.memRead addr n = some ((List.range n).map fun i => s.buf.read (addr + i)) := if_pos h

/-- `MemRead` answers only inside the buffer, and then with its bytes in order. -/
theorem State.memRead_eq_some {s : State} {addr n : Nat} {bs : List Byte} (h : s.memRead addr n = some bs) :
    addr + n ≤ s.len.toNat ∧ bs = (List.range n).map fun i => s.buf.read (addr + i) := by
  unfold State.memRead at h
  split at h
  · exact ⟨‹_›, (Option.some.inj h).symm⟩
  · cases h

theorem State.streamBit_le_one (s : State) (p : Nat) : s.streamBit p ≤ 1 := by
  unfold State.streamBit
  exact Bool.toNat_le _

/-- The bits of the stream depend on BUF alone. -/
theorem State.streamBit_congr {s t : State} (h : t.buf = s.buf) (p : Nat) : t.streamBit p = s.streamBit p := by
  unfold State.streamBit
  rw [h]

/-- A number read from the stream depends on BUF alone. -/
theorem State.bitsFrom_congr {s t : State} (h : t.buf = s.buf) (p n : Nat) : t.bitsFrom p n = s.bitsFrom p n := by
  induction n generalizing p with
  | zero => rfl
  | succ n ih => simp only [State.bitsFrom, State.streamBit_congr h, ih]

@[simp] theorem State.respond_streamBit (s : State) (c : BitVec 4) (v : Word) (a : BitVec 6) (bs : List Byte)
    (p : Nat) : (s.respond c v a bs).streamBit p = s.streamBit p := rfl
@[simp] theorem State.setPos_streamBit (s : State) (q p : Nat) : (s.setPos q).streamBit p = s.streamBit p := rfl
@[simp] theorem State.raise_streamBit (s : State) (e : StatusCode) (p : Nat) :
    (s.raise e).streamBit p = s.streamBit p := rfl
@[simp] theorem State.respond_bitsFrom (s : State) (c : BitVec 4) (v : Word) (a : BitVec 6) (bs : List Byte)
    (p n : Nat) : (s.respond c v a bs).bitsFrom p n = s.bitsFrom p n :=
  State.bitsFrom_congr (State.respond_buf s c v a bs) p n
@[simp] theorem State.setPos_bitsFrom (s : State) (q p n : Nat) : (s.setPos q).bitsFrom p n = s.bitsFrom p n :=
  State.bitsFrom_congr (State.setPos_buf s q) p n

/-- The skip of an alignment lands on a byte boundary, less than a byte away (R42). -/
theorem alignSkip_spec (p : Nat) : alignSkip p < 8 ∧ (p + alignSkip p) % 8 = 0 := by
  unfold alignSkip; omega

theorem alignSkip_of_aligned {p : Nat} (h : p % 8 = 0) : alignSkip p = 0 := by
  unfold alignSkip; omega

/-- A skip never passes the end of a whole number of bytes (R71). -/
theorem alignSkip_le {p l : Nat} (h : p ≤ 8 * l) : p + alignSkip p ≤ 8 * l := by
  unfold alignSkip; omega

/-! ## The checks of a command -/

theorem whenRunning_of_running {s : State} {body : Result} (h : s.statusCode = 0#4) : whenRunning s body = body :=
  if_pos (State.isRunning_eq_true.mpr h)

theorem whenRunning_of_error {s : State} {body : Result} (h : s.statusCode ≠ 0#4) :
    whenRunning s body = .next (s.respond s.statusCode 0 0 []) := by
  unfold whenRunning
  rw [State.isRunning_eq_false.mpr h]
  rfl

/-- A checked command answers the recorded code in the error state, and goes on in the running state. -/
theorem whenRunning_next {s t : State} {body : Result} (h : whenRunning s body = .next t) :
    (s.statusCode ≠ 0#4 ∧ t = s.respond s.statusCode 0 0 []) ∨ (s.statusCode = 0#4 ∧ body = .next t) := by
  by_cases hs : s.statusCode = 0#4
  · exact .inr ⟨hs, by rwa [whenRunning_of_running hs] at h⟩
  · rw [whenRunning_of_error hs] at h
    exact .inl ⟨hs, by cases h; rfl⟩

/-- A legality check raises IllegalCommand or goes on. -/
theorem whenLegal_next {s t : State} {legal : Bool} {body : Result} (h : whenLegal s legal body = .next t) :
    (legal = false ∧ t = s.raise .illegalCommand) ∨ (legal = true ∧ body = .next t) := by
  cases legal with
  | true => exact .inr ⟨rfl, h⟩
  | false => exact .inl ⟨rfl, by cases h; rfl⟩

/-- An end-of-stream check raises TruncatedStream or goes on. -/
theorem whenWithin_next {s t : State} {within : Bool} {body : Result} (h : whenWithin s within body = .next t) :
    (within = false ∧ t = s.raise .truncatedStream) ∨ (within = true ∧ body = .next t) := by
  cases within with
  | true => exact .inr ⟨rfl, h⟩
  | false => exact .inl ⟨rfl, by cases h; rfl⟩

/-- A meaning that goes on with stream data has that data. -/
theorem withData_next {α : Type} {data : Option α} {body : α → State} {t : State}
    (h : withData data body = .next t) : ∃ d, data = some d ∧ t = body d := by
  cases data with
  | none => cases h
  | some d => exact ⟨d, rfl, by cases h; rfl⟩

@[simp] theorem withData_some {α : Type} (d : α) (body : α → State) : withData (some d) body = .next (body d) := rfl

/-- READB's end lies in the stream exactly when the k bytes after the skip do. -/
theorem State.readbEnd_le_iff (s : State) (k : Nat) :
    s.readbEnd k ≤ s.bitLen ↔ (s.pos.toNat + alignSkip s.pos.toNat) / 8 + k ≤ s.len.toNat := by
  have h := alignSkip_spec s.pos.toNat
  unfold State.readbEnd State.bitLen
  omega

end Sys2Proof.Machine
end

