-- ==== Sys2Proof/Laws/Exec.lean ====
section
/-! SUPPORT. For each instruction, once, all the next states it can answer with: later proofs cite these and do not
unfold the meanings. -/

namespace Sys2Proof.Machine

variable {s t : State}

/-- READ answers the recorded code, IllegalCommand, TruncatedStream, or the bits (R64, R85). -/
theorem execRead_next {n : BitVec 6} (h : execRead n s = .next t) :
    (s.statusCode ≠ 0#4 ∧ t = s.respond s.statusCode 0 0 []) ∨
    (s.statusCode = 0#4 ∧ 32 < n.toNat ∧ t = s.raise .illegalCommand) ∨
    (s.statusCode = 0#4 ∧ n.toNat ≤ 32 ∧ s.remaining < n.toNat ∧ t = s.raise .truncatedStream) ∨
    (s.statusCode = 0#4 ∧ n.toNat ≤ 32 ∧ s.pos.toNat + n.toNat ≤ s.bitLen ∧
      t = (s.setPos (s.pos.toNat + n.toNat)).respond 0
        (BitVec.ofNat 32 (s.bitsFrom s.pos.toNat n.toNat)) 0 []) := by
  rcases whenRunning_next h with ⟨hs, rfl⟩ | ⟨hs, h⟩
  · exact .inl ⟨hs, rfl⟩
  rcases whenLegal_next h with ⟨hl, rfl⟩ | ⟨hl, h⟩
  · exact .inr (.inl ⟨hs, Nat.lt_of_not_le (of_decide_eq_false hl), rfl⟩)
  have hn : n.toNat ≤ 32 := of_decide_eq_true hl
  rcases whenWithin_next h with ⟨hw, rfl⟩ | ⟨-, h⟩
  · exact .inr (.inr (.inl ⟨hs, hn, Nat.lt_of_not_le (of_decide_eq_false hw), rfl⟩))
  obtain ⟨v, hv, rfl⟩ := withData_next h
  obtain ⟨hle, rfl⟩ := State.bits_eq_some hv
  exact .inr (.inr (.inr ⟨hs, hn, hle, rfl⟩))

/-- PEEK answers the recorded code, IllegalCommand, or the bits available (R65, R85). -/
theorem execPeek_next {n : BitVec 6} (h : execPeek n s = .next t) :
    (s.statusCode ≠ 0#4 ∧ t = s.respond s.statusCode 0 0 []) ∨
    (s.statusCode = 0#4 ∧ 32 < n.toNat ∧ t = s.raise .illegalCommand) ∨
    (s.statusCode = 0#4 ∧ n.toNat ≤ 32 ∧
      t = s.respond 0
        (BitVec.ofNat 32 (s.bitsFrom s.pos.toNat (min n.toNat s.remaining) *
          2 ^ (n.toNat - min n.toNat s.remaining)))
        (BitVec.ofNat 6 (min n.toNat s.remaining)) []) := by
  rcases whenRunning_next h with ⟨hs, rfl⟩ | ⟨hs, h⟩
  · exact .inl ⟨hs, rfl⟩
  rcases whenLegal_next h with ⟨hl, rfl⟩ | ⟨hl, h⟩
  · exact .inr (.inl ⟨hs, Nat.lt_of_not_le (of_decide_eq_false hl), rfl⟩)
  have hn : n.toNat ≤ 32 := of_decide_eq_true hl
  obtain ⟨v, hv, rfl⟩ := withData_next h
  obtain ⟨-, rfl⟩ := State.bits_eq_some hv
  exact .inr (.inr ⟨hs, hn, rfl⟩)

/-- EXHAUSTED answers the recorded code or the query (R68). -/
theorem execExhausted_next (h : execExhausted s = .next t) :
    (s.statusCode ≠ 0#4 ∧ t = s.respond s.statusCode 0 0 []) ∨
    (s.statusCode = 0#4 ∧ t = s.respond 0 (if s.isExhausted then 1 else 0) 0 []) := by
  rcases whenRunning_next h with ⟨hs, rfl⟩ | ⟨hs, h⟩
  · exact .inl ⟨hs, rfl⟩
  · exact .inr ⟨hs, by cases h; rfl⟩

/-- READB answers the recorded code, TruncatedStream, or all its bytes (R70, R85). -/
theorem execReadb_next {k : BitVec 28} (h : execReadb k s = .next t) :
    (s.statusCode ≠ 0#4 ∧ t = s.respond s.statusCode 0 0 []) ∨
    (s.statusCode = 0#4 ∧ s.bitLen < s.readbEnd k.toNat ∧ t = s.raise .truncatedStream) ∨
    (s.statusCode = 0#4 ∧ s.readbEnd k.toNat ≤ s.bitLen ∧
      t = (s.setPos (s.readbEnd k.toNat)).respond 0 0 0
        ((List.range k.toNat).map fun i => s.buf.read ((s.pos.toNat + alignSkip s.pos.toNat) / 8 + i))) := by
  rcases whenRunning_next h with ⟨hs, rfl⟩ | ⟨hs, h⟩
  · exact .inl ⟨hs, rfl⟩
  rcases whenWithin_next h with ⟨hw, rfl⟩ | ⟨hw, h⟩
  · exact .inr (.inl ⟨hs, Nat.lt_of_not_le (of_decide_eq_false hw), rfl⟩)
  obtain ⟨bs, hb, rfl⟩ := withData_next h
  obtain ⟨-, rfl⟩ := State.memRead_eq_some hb
  exact .inr (.inr ⟨hs, of_decide_eq_true hw, rfl⟩)

/-- LOAD installs the payload, or refuses one that is too long (R74). -/
theorem execLoad_next {data : List Byte} (h : execLoad data s = .next t) :
    (s.cfg.maxLenBytes.val < data.length ∧ t = (s.install [] .illegalCommand).respondHost 7) ∨
    (data.length ≤ s.cfg.maxLenBytes.val ∧ t = (s.install data .ok).respondHost 0) := by
  unfold execLoad at h
  split at h
  · exact .inl ⟨‹_›, by cases h; rfl⟩
  · exact .inr ⟨Nat.le_of_not_lt ‹_›, by cases h; rfl⟩

/-- An illegal command word answers the recorded code or raises IllegalCommand (R79, R82). -/
theorem execIllegalCommand_next (h : execIllegalCommand s = .next t) :
    (s.statusCode ≠ 0#4 ∧ t = s.respond s.statusCode 0 0 []) ∨
    (s.statusCode = 0#4 ∧ t = s.raise .illegalCommand) := by
  rcases whenRunning_next h with ⟨hs, rfl⟩ | ⟨hs, h⟩
  · exact .inl ⟨hs, rfl⟩
  · rcases whenLegal_next h with ⟨-, rfl⟩ | ⟨hf, -⟩
    · exact .inr ⟨hs, rfl⟩
    · cases hf

/-- A step is idle, runs the decoded instruction, or answers a word that is none (R12, R93). -/
theorem step_next (h : step s = .next t) :
    (s.pending = [] ∧ t = s) ∨
    (∃ op rest i, s.pending = op :: rest ∧ decode op = .ok i ∧
      exec i { s with pending := rest } = .next t) ∨
    (∃ op rest e, s.pending = op :: rest ∧ decode op = .error e ∧
      execUndecoded e { s with pending := rest } = .next t) := by
  unfold step at h
  split at h
  · exact .inl ⟨State.takeOperation_eq_none.mp ‹_›, by cases h; rfl⟩
  · rename_i op u hop
    obtain ⟨rest, hp, rfl⟩ := State.takeOperation_eq_some hop
    split at h
    · exact .inr (.inl ⟨op, rest, _, hp, ‹_›, h⟩)
    · exact .inr (.inr ⟨op, rest, _, hp, ‹_›, h⟩)

end Sys2Proof.Machine
end

