-- ==== Sys2Proof/Laws/Client.lean ====
section
/-! SUPPORT. What a client's sequence of instructions answers, and the invariant as one decidable conjunction. -/

namespace Sys2Proof.Machine

@[simp] theorem issue_nil (s : State) : issue [] s = some ([], s) := rfl

/-- An instruction that completes and answers puts its response in front of those of the instructions after it. -/
theorem issue_cons {i : Instr} {is : List Instr} {s t u : State} {r : Response} {rs : List Response}
    (h : exec i s = .next t) (hr : t.response = some r) (ht : issue is t = some (rs, u)) :
    issue (i :: is) s = some (r :: rs, u) := by
  simp only [issue, h, hr, ht]

/-- A sequence that answers has a first instruction that completed and answered. -/
theorem issue_cons_eq_some {i : Instr} {is : List Instr} {s u : State} {rs : List Response}
    (h : issue (i :: is) s = some (rs, u)) :
    ∃ t r rs', exec i s = .next t ∧ t.response = some r ∧ issue is t = some (rs', u) ∧ rs = r :: rs' := by
  simp only [issue] at h
  split at h
  · split at h
    · rename_i t hx _ _ r rs' u' hr hrs
      cases h
      exact ⟨t, r, rs', hx, hr, hrs, rfl⟩
    · cases h
  · cases h
  · cases h

/-- The invariant, as a conjunction that `decide` can run on a concrete state. -/
theorem inv_iff (s : State) :
    Inv s ↔ s.buf.wf = true ∧ (∀ c ∈ s.buf, c.1 < s.len.toNat) ∧ s.len.toNat ≤ s.cfg.maxLenBytes.val ∧
      s.pos.toNat ≤ 8 * s.len.toNat ∧ (s.statusCode = 0 ∨ s.statusCode = 5 ∨ s.statusCode = 7) :=
  ⟨fun h => ⟨h.canonical, h.within, h.lenLegal, h.posLegal, h.codeLegal⟩,
   fun ⟨h1, h2, h3, h4, h5⟩ => ⟨h1, h2, h3, h4, h5⟩⟩

/-- The law of responses says nothing of a state whose last output is no command response. -/
theorem responseInv_of_none {s : State} (h : s.response = none) : ResponseInv s := by
  intro r hr
  rw [h] at hr
  cases hr

end Sys2Proof.Machine
end

