-- ==== Sys2Proof/Laws/PerInstr.lean ====
section
/-! SUPPORT. What is said of every instruction as it is written, one lemma per constructor. -/

namespace Sys2Proof.Laws

/-- The mask of an instruction's row of spec/opcode_table.json (R57, R58). -/
def rowMask : Instr → Word
  | .read _ => 0xFFFFFFC0#32
  | .peek _ => 0xFFFFFFC0#32
  | .exhausted => 0xFFFFFFFF#32
  | .readb _ => 0xF0000000#32
  | .reset => 0xFFFFFFFF#32
  | .load _ => 0xFFFFFFFF#32
  | .readReg _ => 0xFFFFFFF0#32

/-- The match of an instruction's row of spec/opcode_table.json (R57, R58). -/
def rowMatch : Instr → Word
  | .read _ => 0x10000000#32
  | .peek _ => 0x20000000#32
  | .exhausted => 0x30000000#32
  | .readb _ => 0x40000000#32
  | .reset => 0x00000000#32
  | .load _ => 0x10000000#32
  | .readReg _ => 0x20000000#32

/-- The word an instruction encodes to has the fixed bits of its row of the opcode table. -/
def EncodesRow.Statement (i : Instr) : Prop := encodeWord i &&& rowMask i = rowMatch i

/-- A zero-extended operand or'ed below a base leaves the masked bits of the base. -/
theorem or_operand_and_mask {k : Nat} (base mask : Word) (x : BitVec k) (hb : base &&& mask = base)
    (hx : ∀ j, j < k → mask.getLsbD j = false) : (base ||| x.setWidth 32) &&& mask = base := by
  have h0 : x.setWidth 32 &&& mask = 0#32 := by
    apply BitVec.eq_of_getLsbD_eq
    intro j _
    rcases Nat.lt_or_ge j k with hj | hj
    · simp [hx j hj]
    · simp [BitVec.getLsbD_of_ge x j hj]
  have : (base ||| x.setWidth 32) &&& mask = (base &&& mask) ||| (x.setWidth 32 &&& mask) := by
    apply BitVec.eq_of_getLsbD_eq
    intro j hj
    simp only [BitVec.getLsbD_and, BitVec.getLsbD_or, Bool.and_or_distrib_right]
  rw [this, hb, h0]
  simp

theorem EncodesRow.read (n : BitVec 6) : EncodesRow.Statement (.read n) :=
  or_operand_and_mask 0x10000000#32 0xFFFFFFC0#32 n (by decide) (by decide)

theorem EncodesRow.peek (n : BitVec 6) : EncodesRow.Statement (.peek n) :=
  or_operand_and_mask 0x20000000#32 0xFFFFFFC0#32 n (by decide) (by decide)

theorem EncodesRow.exhausted : EncodesRow.Statement .exhausted := by unfold EncodesRow.Statement; decide

theorem EncodesRow.readb (k : BitVec 28) : EncodesRow.Statement (.readb k) :=
  or_operand_and_mask 0x40000000#32 0xF0000000#32 k (by decide) (by decide)

theorem EncodesRow.reset : EncodesRow.Statement .reset := by unfold EncodesRow.Statement; decide

theorem EncodesRow.load (payload : List Byte) : EncodesRow.Statement (.load payload) := by
  show (0x10000000#32 &&& 0xFFFFFFFF#32 : Word) = 0x10000000#32
  decide

theorem EncodesRow.readReg (r : BitVec 4) : EncodesRow.Statement (.readReg r) :=
  or_operand_and_mask 0x20000000#32 0xFFFFFFF0#32 r (by decide) (by decide)

end Sys2Proof.Laws
end

