-- ==== Sys2Proof/Tests/Slice0.lean ====
section
/-! SUPPORT. The author's own tests. Expected results are the vectors of spec/95_test_vectors.md (named in each
comment) and words written out from the formats of spec/30_encoding.md; the last part shows, for each statement with
hypotheses, a state and operands that meet them. -/

namespace Sys2Proof.Tests

open Sys2Proof Sys2Proof.Machine

/-! ## Helpers -/

/-- The buffer `B` of 95_test_vectors.md section 2, at a position and with a status code. -/
def stateB (pos : Nat) (code : BitVec 4) : State :=
  { State.reset with
    buf := Memory.ofBytes [0xA5, 0x3C, 0xFF, 0x00, 0x81], len := 5, pos := BitVec.ofNat 32 pos, statusCode := code }

/-- The state of vector B12: LEN = MAX_LEN_BYTES = 2^29 - 1 (a stream of zeros), POS = 4294967280. -/
def stateB12 : State := { State.reset with len := 536870911, pos := 4294967280 }

/-- A machine whose MAX_LEN_BYTES is 1. -/
def smallMachine : State := { State.reset with cfg := ⟨1⟩ }

/-- A state with operations presented. -/
def presenting (s : State) (ops : List Operation) : State := { s with pending := ops }

/-- A command's response, POS and CODE after it; `none` where the model stops or another port answers. -/
def answer : Result → Option (CmdResponse × Nat × Nat)
  | .next t =>
    match t.response with
    | some (.command r) => some (r, t.pos.toNat, t.statusCode.toNat)
    | _ => none
  | _ => none

/-- The host response word, LEN, POS and CODE after a host operation. -/
def hostAnswer : Result → Option (Word × Nat × Nat × Nat)
  | .next t =>
    match t.response with
    | some (.host w) => some (w, t.len.toNat, t.pos.toNat, t.statusCode.toNat)
    | _ => none
  | _ => none

/-- Whether a step has a next state. -/
def completes : Result → Bool
  | .next _ => true
  | .fault _ => false
  | .refused _ => false

theorem exists_of_completes {r : Result} (h : completes r = true) : ∃ t, r = .next t := by
  cases r with
  | next t => exact ⟨t, rfl⟩
  | fault f => cases h
  | refused f => cases h

/-! ## Well-formedness (R52) -/

theorem test_wf_refuses_read_33 : (Instr.read 33).wf = false := by decide
theorem test_wf_refuses_peek_33 : (Instr.peek 33).wf = false := by decide
theorem test_wf_admits_32 : (Instr.read 32).wf = true ∧ (Instr.peek 32).wf = true := by decide

/-! ## Decoding: every constructor, from its word written out by its format -/

/-- R52: op 0001, 22 zeros, n = 100000. -/
theorem test_decode_read : decode (.command 0b00010000000000000000000000100000#32) = .ok (.read 32) := by rfl
/-- R52: op 0010, 22 zeros, n = 000100. -/
theorem test_decode_peek : decode (.command 0b00100000000000000000000000000100#32) = .ok (.peek 4) := by rfl
/-- R53: op 0011, 28 zeros. -/
theorem test_decode_exhausted : decode (.command 0b00110000000000000000000000000000#32) = .ok .exhausted := by rfl
/-- R54: op 0100, k all ones. -/
theorem test_decode_readb :
    decode (.command 0b01001111111111111111111111111111#32) = .ok (.readb 0xFFFFFFF) := by rfl
/-- R55, R58: hop 0000. -/
theorem test_decode_reset : decode (.host 0b00000000000000000000000000000000#32 []) = .ok .reset := by rfl
/-- R55, R58: hop 0001 and its payload. -/
theorem test_decode_load :
    decode (.host 0b00010000000000000000000000000000#32 [0xAB]) = .ok (.load [0xAB]) := by rfl
/-- R55, R58: hop 0010, reg 1111. -/
theorem test_decode_readReg : decode (.host 0b00100000000000000000000000001111#32 []) = .ok (.readReg 15) := by rfl

/-- Vectors I1 to I9. -/
theorem test_illegal_words :
    [0x00000000#32, 0x10000021#32, 0x1000003F#32, 0x10000040#32, 0x14000000#32, 0x20000021#32, 0x30000001#32,
      0x50000000#32, 0xF0000001#32].all (fun w => decide (decodeCommand w matches .error .illegalCommand)) = true := by
  decide

/-- Vectors E8, E9 and the other forms of R61. -/
theorem test_reserved_host_words :
    [0x30000000#32, 0x00000001#32, 0x10000001#32, 0x20000010#32, 0xF0000000#32].all
      (fun w => decide (decodeHost w [0xAB] matches .error .reservedHostWord)) = true := by
  decide

/-! ## The instructions, one step each -/

/-- RD8: 32 bits over five bytes. -/
theorem test_read_over_five_bytes : answer (exec (.read 32) (stateB 7 0)) = some (⟨0, 0x9E7F8040, 0, []⟩, 39, 0) := by
  decide
/-- RD10: n = R + 1. -/
theorem test_read_truncated : answer (exec (.read 32) (stateB 9 0)) = some (⟨5, 0, 0, []⟩, 9, 5) := by decide
/-- P2v: four real bits and four of zero fill. -/
theorem test_peek_short : answer (exec (.peek 8) (stateB 36 0)) = some (⟨0, 0x10, 4, []⟩, 36, 0) := by decide
/-- P7v: a full word across bytes. -/
theorem test_peek_word : answer (exec (.peek 32) (stateB 6 0)) = some (⟨0, 0x4F3FC020, 32, []⟩, 6, 0) := by decide
/-- X1. -/
theorem test_exhausted_at_end : answer (exec .exhausted (stateB 40 0)) = some (⟨0, 1, 0, []⟩, 40, 0) := by decide
/-- X2. -/
theorem test_exhausted_one_bit_left : answer (exec .exhausted (stateB 39 0)) = some (⟨0, 0, 0, []⟩, 39, 0) := by decide
/-- B3: five bits skipped. -/
theorem test_readb_skips : answer (exec (.readb 2) (stateB 3 0)) = some (⟨0, 0, 0, [0x3C, 0xFF]⟩, 24, 0) := by decide
/-- B12: the sum exceeds 2^32 and is compared on naturals. -/
theorem test_readb_does_not_wrap :
    answer (exec (.readb 268435455) stateB12) = some (⟨5, 0, 0, []⟩, 4294967280, 5) := by decide
/-- E5. -/
theorem test_reset : hostAnswer (exec .reset (stateB 36 5)) = some (0, 0, 0, 0) := by decide
/-- E6: LOAD in the error state. -/
theorem test_load : hostAnswer (exec (.load [0xAB]) (stateB 36 5)) = some (0, 1, 0, 0) := by decide
/-- E7: one byte too many. -/
theorem test_load_too_long : hostAnswer (exec (.load [0xAB, 0xCD]) smallMachine) = some (7, 0, 0, 7) := by decide
/-- E4: STATUS reads its code in the error state. -/
theorem test_readReg_status : hostAnswer (exec (.readReg 0) (stateB 36 5)) = some (5, 5, 36, 5) := by decide
/-- E4: POS is left at the failing command. -/
theorem test_readReg_pos : hostAnswer (exec (.readReg 1) (stateB 36 5)) = some (36, 5, 36, 5) := by decide

/-- E3: an illegal word from the running state. -/
theorem test_step_illegal_word :
    answer (step (presenting (stateB 0 0) [.command 0x70000000])) = some (⟨7, 0, 0, []⟩, 0, 7) := by decide
/-- E2: an illegal word in the error state is not reported. -/
theorem test_step_illegal_word_in_error :
    answer (step (presenting (stateB 36 5) [.command 0])) = some (⟨5, 0, 0, []⟩, 36, 5) := by decide
/-- A table word is the very next step: EXHAUSTED from reset (X3). -/
theorem test_withFetchWord : answer (step (State.reset.withFetchWord 32 0x30000000)) = some (⟨0, 1, 0, []⟩, 0, 0) := by
  decide

/-! ## The writer's layout and the assembler -/

/-- W1. -/
theorem test_writer_W1 :
    Writer.finish [.bits 3 5, .bits 7 0x14, .block [0xFF, 0x00], .bits 1 1] = [0xA5, 0x00, 0xFF, 0x00, 0x80] := by decide
/-- W2. -/
theorem test_writer_W2 : Writer.finish [.bits 4 0x1F, .bits 0 7] = [0xF0] := by decide

/-- R62: `READ 0x20 ; magic` is READ 32. -/
theorem test_assemble_read :
    assembleLine ['R', 'E', 'A', 'D', ' ', '0', 'x', '2', '0', ' ', ';', 'm'] = .ok (some (.read 32)) := by rfl
/-- R62: `READ 33` is refused. -/
theorem test_assemble_refuses_read_33 : assembleLine ['R', 'E', 'A', 'D', ' ', '3', '3'] = .error .operandRange := by rfl
/-- R62: `LOAD [0xA5, 0x3c]`. -/
theorem test_assemble_load :
    assembleLine ['L', 'O', 'A', 'D', ' ', '[', '0', 'x', 'A', '5', ',', ' ', '0', 'x', '3', 'c', ']'] =
      .ok (some (.load [0xA5, 0x3C])) := by rfl

/-! ## Witnesses: for each statement with hypotheses, a state and operands that meet them together, one for each
clause, at the boundary of its range. A witness is named after its statement. -/

theorem inv_stateB_40 : Inv (stateB 40 0) := (inv_iff _).mpr (by decide)
theorem inv_stateB_9 : Inv (stateB 9 0) := (inv_iff _).mpr (by decide)
theorem inv_stateB_8 : Inv (stateB 8 0) := (inv_iff _).mpr (by decide)
theorem inv_stateB_3 : Inv (stateB 3 0) := (inv_iff _).mpr (by decide)
theorem inv_stateB_error : Inv (stateB 36 5) := (inv_iff _).mpr (by decide)
theorem inv_stateB_illegal : Inv (stateB 0 7) := (inv_iff _).mpr (by decide)
theorem inv_stateB12 : Inv stateB12 := (inv_iff _).mpr (by decide)

theorem witness_DecodeEncodeRoundTrip : (Instr.read 32).wf = true ∧ (Instr.readb 0xFFFFFFF).wf = true := by decide

theorem witness_EncodeDecodeRoundTrip :
    decode (.command 0x20000020#32) = .ok (.peek 32) ∧
    decode (.host 0x10000000#32 [0xA5]) = .ok (.load [0xA5]) ∧ decode (.host 0x00000000#32 [0xA5]) = .ok .reset :=
  ⟨by rfl, by rfl, by rfl⟩

theorem witness_PortsKeepTheirRights :
    decode (.command 0x10000000#32) = .ok (.read 0) ∧ decode (.host 0x10000000#32 []) = .ok (.load []) :=
  ⟨by rfl, by rfl⟩

theorem witness_StepRunsTheDecodedInstruction :
    (presenting (stateB 9 0) [.command 0x1000001F#32, .host 0 []]).pending = [.command 0x1000001F#32, .host 0 []] ∧
    decode (.command 0x1000001F#32) = .ok (.read 31) ∧ (Instr.read 31).wf = true :=
  ⟨rfl, by rfl, by decide⟩

/-- Also the hypothesis of StepKeepsTheParameters. -/
theorem witness_StepTakesOneOperationInOrder :
    ∃ t, step (presenting (stateB 9 0) [.command 0x1000001F#32, .host 0 []]) = .next t :=
  exists_of_completes (by decide)

/-- Also the hypothesis of EveryOperationCompletes. -/
theorem witness_EveryStepKeepsTheInvariant :
    Inv (presenting (stateB 9 0) [.command 0x1000001F#32, .host 0 []]) ∧
    ∃ t, step (presenting (stateB 9 0) [.command 0x1000001F#32, .host 0 []]) = .next t :=
  ⟨(inv_iff _).mpr (by decide), exists_of_completes (by decide)⟩

/-- After a PEEK of 32 bits that answered with a value, and an EXHAUSTED next. -/
theorem witness_EveryStepKeepsTheResponseLaw :
    ResponseInv { stateB 6 0 with
      response := some (.command ⟨0, 0x4F3FC020, 32, []⟩), pending := [.command 0x30000000#32] } ∧
    ∃ t, step { stateB 6 0 with
      response := some (.command ⟨0, 0x4F3FC020, 32, []⟩), pending := [.command 0x30000000#32] } = .next t := by
  refine ⟨?_, exists_of_completes (by decide)⟩
  intro r hr
  cases hr
  exact ⟨rfl, by decide, by decide, fun h => absurd rfl h⟩

theorem witness_PresentedInstructionRuns : (Instr.peek 32).wf = true := by decide

/-- A word of each port: 0x2000000F is the host's READ_REG 15 and 0x20000010 the client's PEEK 16 (log 5). -/
theorem witness_TableWordRunsNext :
    decodeTableWord 32 0x2000000F = some (.readReg 15) ∧ decodeTableWord 32 0x20000010 = some (.peek 16) := by decide

theorem witness_IdleStepKeepsAllState : (stateB 9 0).pending = [] := rfl

theorem witness_EveryOperationAnswersOnItsPort :
    (∃ t, step (presenting (stateB 9 0) [.command 0]) = .next t) ∧
    (presenting (stateB 9 0) [.command 0]).pending = .command 0 :: [] ∧
    (∃ t, step (presenting (stateB 9 0) [.host 0x30000000#32 []]) = .next t) ∧
    (presenting (stateB 9 0) [.host 0x30000000#32 []]).pending = .host 0x30000000#32 [] :: [] :=
  ⟨exists_of_completes (by decide), rfl, exists_of_completes (by decide), rfl⟩

/-- One word of each clause of R60, at its boundary. -/
theorem witness_IllegalWordRaisesIllegalCommand :
    IllegalWord 0x0FFFFFFF#32 ∧ IllegalWord 0x50000000#32 ∧ IllegalWord 0x10000040#32 ∧ IllegalWord 0x20000021#32 ∧
    IllegalWord 0x30000001#32 ∧ (presenting (stateB 9 0) [.command 0x0FFFFFFF#32]).pending = [.command 0x0FFFFFFF#32] ∧
    (presenting (stateB 9 0) [.command 0x0FFFFFFF#32]).statusCode = 0 := by
  unfold IllegalWord
  decide

/-- One word of each clause of R61, at its boundary. -/
theorem witness_ReservedHostWordIsIgnored :
    ReservedHostWord 0x30000000#32 ∧ ReservedHostWord 0x20000010#32 ∧ ReservedHostWord 0x10000001#32 ∧
    ReservedHostWord 0x0000000F#32 ∧
    (presenting (stateB 36 5) [.host 0x30000000#32 [0xAB]]).pending = [.host 0x30000000#32 [0xAB]] := by
  unfold ReservedHostWord
  decide

theorem witness_ErrorStateIsTerminalForCommands :
    (presenting (stateB 36 5) [.command 0]).pending = [.command 0] ∧
    (presenting (stateB 36 5) [.command 0]).statusCode ≠ 0 := by decide

theorem witness_OnlyResetAndLoadLeaveTheErrorState :
    (∃ t, step (presenting (stateB 36 5) [.host 0x10000000#32 []]) = .next t ∧ t.statusCode = 0) ∧
    (presenting (stateB 36 5) [.host 0x10000000#32 []]).statusCode ≠ 0 ∧
    [(0xAB : Byte)].length ≤ smallMachine.cfg.maxLenBytes.val :=
  ⟨⟨_, rfl, rfl⟩, by decide, by decide⟩

/-- A command that raises an error, and so changes CODE; also the hypotheses of BlockProducesOnlyItsCodes. -/
theorem witness_ErrorEntryIsPrecise :
    (presenting (stateB 40 0) [.command 0x10000001#32]).pending = [.command 0x10000001#32] ∧
    (∃ t, step (presenting (stateB 40 0) [.command 0x10000001#32]) = .next t ∧ t.statusCode ≠ 0 ∧
      t.statusCode ≠ (presenting (stateB 40 0) [.command 0x10000001#32]).statusCode) ∧
    (presenting (stateB 40 0) [.command 0x10000001#32]).statusCode = 0 :=
  ⟨rfl, ⟨_, rfl, by decide, by decide⟩, rfl⟩

/-- READ: the error state; n = R + 1 (RD10); n = R (RD9). -/
theorem witness_ReadFollowsItsRule :
    (Inv (stateB 36 5) ∧ (stateB 36 5).statusCode ≠ 0) ∧
    (Inv (stateB 9 0) ∧ (stateB 9 0).statusCode = 0 ∧ (32#6).toNat ≤ 32 ∧
      (32#6).toNat = 8 * (stateB 9 0).len.toNat - (stateB 9 0).pos.toNat + 1) ∧
    (Inv (stateB 8 0) ∧ (stateB 8 0).statusCode = 0 ∧
      (32#6).toNat = 8 * (stateB 8 0).len.toNat - (stateB 8 0).pos.toNat) :=
  ⟨⟨inv_stateB_error, by decide⟩, ⟨inv_stateB_9, by decide⟩, ⟨inv_stateB_8, by decide⟩⟩

/-- PEEK: the error state; the end of the stream, n = 32. -/
theorem witness_PeekFollowsItsRule :
    (Inv (stateB 36 5) ∧ (stateB 36 5).statusCode ≠ 0) ∧
    (Inv (stateB 40 0) ∧ (stateB 40 0).statusCode = 0 ∧ (32#6).toNat ≤ 32) :=
  ⟨⟨inv_stateB_error, by decide⟩, ⟨inv_stateB_40, by decide⟩⟩

theorem witness_StreamBitsAreMostSignificantFirst : (stateB 0 0).readByte (39 / 8) = some 0x81 := by decide

theorem witness_ReadValuesFitTheirCount :
    (32#6).toNat ≤ 32 ∧ (∃ t r, exec (.read 32) (stateB 8 0) = .next t ∧ t.response = some (.command r)) ∧
    (∃ t r, exec (.peek 32) (stateB 40 0) = .next t ∧ t.response = some (.command r)) :=
  ⟨by decide, ⟨_, _, rfl, rfl⟩, ⟨_, _, rfl, rfl⟩⟩

/-- k = 4 up to the end of the stream. -/
theorem witness_AlignedReadIsBigEndian :
    Inv (stateB 8 0) ∧ (stateB 8 0).statusCode = 0 ∧ (stateB 8 0).pos.toNat % 8 = 0 ∧
    (stateB 8 0).pos.toNat / 8 + 4 ≤ (stateB 8 0).len.toNat :=
  ⟨inv_stateB_8, by decide⟩

/-- n + m = 32 up to the end of the stream. -/
theorem witness_SplitReadsSeeTheSameBits :
    Inv (stateB 8 0) ∧ (stateB 8 0).statusCode = 0 ∧
    (stateB 8 0).pos.toNat + (7 + 25) ≤ 8 * (stateB 8 0).len.toNat :=
  ⟨inv_stateB_8, by decide⟩

theorem witness_ShortPeekHoldsTheReadableBits :
    Inv (stateB 9 0) ∧ (stateB 9 0).statusCode = 0 ∧ (32#6).toNat ≤ 32 :=
  ⟨inv_stateB_9, by decide⟩

theorem witness_PeekThenReadAgree :
    Inv (stateB 9 0) ∧ (stateB 9 0).statusCode = 0 ∧ (31#6).toNat ≤ 32 ∧
    (31#6).toNat ≤ 8 * (stateB 9 0).len.toNat - (stateB 9 0).pos.toNat :=
  ⟨inv_stateB_9, by decide⟩

theorem witness_ExhaustedFollowsItsRule :
    (stateB 40 7).statusCode ≠ 0 ∧
    ((stateB 40 0).statusCode = 0 ∧ (stateB 40 0).pos.toNat = 8 * (stateB 40 0).len.toNat) ∧
    ((stateB 39 0).statusCode = 0 ∧ (stateB 39 0).pos.toNat ≠ 8 * (stateB 39 0).len.toNat) := by decide

theorem witness_ExhaustedPredictsTheNextCommand :
    (Inv (stateB 40 0) ∧
      ∃ e, exec .exhausted (stateB 40 0) = .next e ∧ e.response = some (.command ⟨0, 1, 0, []⟩)) ∧
    (Inv (stateB 9 0) ∧
      ∃ e, exec .exhausted (stateB 9 0) = .next e ∧ e.response = some (.command ⟨0, 0, 0, []⟩)) ∧
    (1#6).toNat ≤ 32 ∧ 1 ≤ (1#28).toNat :=
  ⟨⟨inv_stateB_40, _, rfl, by decide⟩, ⟨inv_stateB_9, _, rfl, by decide⟩, by decide, by decide⟩

/-- READB: the error state; one byte too many, and with a sum above 2^32 (B12); the last byte (B5's fit). -/
theorem witness_ReadbFollowsItsRule :
    (Inv (stateB 36 5) ∧ (stateB 36 5).statusCode ≠ 0) ∧
    (Inv stateB12 ∧ stateB12.statusCode = 0 ∧
      stateB12.pos.toNat + (8 - stateB12.pos.toNat % 8) % 8 + 8 * (268435455#28).toNat > 8 * stateB12.len.toNat) ∧
    (Inv (stateB 3 0) ∧ (stateB 3 0).statusCode = 0 ∧
      (stateB 3 0).pos.toNat + (8 - (stateB 3 0).pos.toNat % 8) % 8 + 8 * (5#28).toNat =
        8 * (stateB 3 0).len.toNat + 8) ∧
    (stateB 3 0).pos.toNat + (8 - (stateB 3 0).pos.toNat % 8) % 8 + 8 * (4#28).toNat = 8 * (stateB 3 0).len.toNat :=
  ⟨⟨inv_stateB_error, by decide⟩, ⟨inv_stateB12, by decide⟩, ⟨inv_stateB_3, by decide⟩, by decide⟩

theorem witness_AlignNeverTruncates : Inv (stateB 40 0) ∧ (stateB 40 0).statusCode = 0 := ⟨inv_stateB_40, rfl⟩

theorem witness_ReadbIsAllOrNothing :
    (∃ t, exec (.readb 4) (stateB 3 0) = .next t) ∧ (∃ t, exec (.readb 5) (stateB 3 0) = .next t) :=
  ⟨⟨_, rfl⟩, ⟨_, rfl⟩⟩

/-- Two streams that differ in the skipped bits alone: 0xA5 against 0xA0 from bit 5 on. -/
theorem witness_ReadbIgnoresSkippedBits :
    Inv (stateB 5 0) ∧ Inv { stateB 5 0 with buf := Memory.ofBytes [0xA0, 0x3C, 0xFF, 0x00, 0x81] } ∧
    (∀ a, (stateB 5 0).pos.toNat + alignSkip (stateB 5 0).pos.toNat ≤ 8 * a →
      State.readByte { stateB 5 0 with buf := Memory.ofBytes [0xA0, 0x3C, 0xFF, 0x00, 0x81] } a =
        (stateB 5 0).readByte a) ∧
    (∃ t, exec (.readb 4) (stateB 5 0) = .next t) := by
  refine ⟨(inv_iff _).mpr (by decide), (inv_iff _).mpr (by decide), ?_, _, rfl⟩
  intro a ha
  have h1 : 1 ≤ a := by
    have : (stateB 5 0).pos.toNat + alignSkip (stateB 5 0).pos.toNat = 8 := by decide
    omega
  cases a with
  | zero => omega
  | succ a => simp [State.readByte, stateB, Memory.read_ofBytes]

theorem witness_ReadbEqualsByteReads :
    Inv (stateB 8 0) ∧ (stateB 8 0).statusCode = 0 ∧ (stateB 8 0).pos.toNat % 8 = 0 ∧
    (stateB 8 0).pos.toNat + 8 * (4#28).toNat ≤ 8 * (stateB 8 0).len.toNat :=
  ⟨inv_stateB_8, by decide⟩

/-- LOAD: at MAX_LEN_BYTES = 1, one byte and two. -/
theorem witness_LoadFollowsItsRule :
    [(0xAB : Byte)].length ≤ smallMachine.cfg.maxLenBytes.val ∧
    [(0xAB : Byte), 0xCD].length > smallMachine.cfg.maxLenBytes.val := by decide

theorem witness_ReadRegFollowsItsRule :
    (0#4).toNat = 0 ∧ (1#4).toNat = 1 ∧ (2#4).toNat = 2 ∧ 3 ≤ (3#4).toNat := by decide

/-- A command that moves POS, one that does not, and READ_REG in the error state. -/
theorem witness_OnlyResetAndLoadTouchTheStream :
    (∃ t, exec (.readb 4) (stateB 3 0) = .next t) ∧ (∃ t, exec (.peek 8) (stateB 40 0) = .next t) ∧
    (∃ t, exec (.readReg 1) (stateB 36 5) = .next t) :=
  ⟨⟨_, rfl⟩, ⟨_, rfl⟩, ⟨_, rfl⟩⟩

theorem witness_CommandsMovePosForwardOnly :
    Inv (stateB 8 0) ∧ (Instr.read 32).isCommand = true ∧ (∃ t, exec (.read 32) (stateB 8 0) = .next t) :=
  ⟨inv_stateB_8, rfl, _, rfl⟩

theorem witness_PeekAndExhaustedAreIdempotent :
    (32#6).toNat ≤ 32 ∧ (∃ t, exec (.peek 32) (stateB 9 0) = .next t) ∧ (∃ t, exec .exhausted (stateB 40 0) = .next t) :=
  ⟨by decide, ⟨_, rfl⟩, ⟨_, rfl⟩⟩

theorem witness_NoMeaningReadsTheOutputs : ∃ t, exec (.load [0xAB]) (stateB 36 5) = .next t := ⟨_, rfl⟩

/-- Two streams that differ in a bit that is already read: 0xA5 against 0x25 from bit 1 on. -/
theorem witness_CommandsSeeOnlyUnreadBits :
    Inv (stateB 9 0) ∧ Inv { stateB 9 0 with buf := Memory.ofBytes [0x25, 0x3C, 0xFF, 0x00, 0x81] } ∧
    SameUnread (stateB 9 0) { stateB 9 0 with buf := Memory.ofBytes [0x25, 0x3C, 0xFF, 0x00, 0x81] } ∧
    (Instr.read 31).isCommand = true ∧ (∃ t, exec (.read 31) (stateB 9 0) = .next t) := by
  refine ⟨inv_stateB_9, (inv_iff _).mpr (by decide), ⟨rfl, rfl, rfl, ?_⟩, rfl, _, rfl⟩
  intro p h1 h2
  have h9 : (stateB 9 0).pos.toNat = 9 := by decide
  rw [h9] at h1
  simp only [State.streamBit, stateB, Memory.read_ofBytes]
  cases h : p / 8 with
  | zero => omega
  | succ q => rfl

theorem witness_FinishedStreamHoldsTheWrittenBits :
    (Writer.finish [.bits 32 5, .block [0xFF], .bits 1 1]).length ≤ State.reset.cfg.maxLenBytes.val ∧
    (∃ t, exec (.load (Writer.finish [.bits 32 5, .block [0xFF], .bits 1 1])) State.reset = .next t) :=
  ⟨by decide, exists_of_completes (by decide)⟩

theorem witness_WriterRoundTrip :
    (∀ f ∈ [WriterField.bits 32 5, .block [0xFF], .bits 1 1], f.legal = true) ∧
    (Writer.finish [.bits 32 5, .block [0xFF], .bits 1 1]).length ≤ State.reset.cfg.maxLenBytes.val ∧
    (∃ t, exec (.load (Writer.finish [.bits 32 5, .block [0xFF], .bits 1 1])) State.reset = .next t) :=
  ⟨by decide, by decide, exists_of_completes (by decide)⟩

/-- `READB 0xFFFFFFF`, the largest byte count, and `READB 0x10000000`, one more. -/
theorem test_assemble_readb_range :
    assembleLine ['R', 'E', 'A', 'D', 'B', ' ', '0', 'x', 'F', 'F', 'F', 'F', 'F', 'F', 'F'] =
      .ok (some (.readb 0xFFFFFFF)) ∧
    assembleLine ['R', 'E', 'A', 'D', 'B', ' ', '0', 'x', '1', '0', '0', '0', '0', '0', '0', '0'] =
      .error .operandRange := ⟨by rfl, by rfl⟩

/-- A line that assembles; and for each mnemonic a line whose operand is at its limit, and one above. -/
theorem witness_AssembledLinesAreWellFormed :
    assembleLine ['P', 'E', 'E', 'K', ' ', '3', '2'] = .ok (some (.peek 32)) ∧
    (parseNumber ['3', '2'] = some 32 ∧ parseNumber ['3', '3'] = some 33 ∧
      tokens ['R', 'E', 'A', 'D', ' ', '3', '2'] [] = [['R', 'E', 'A', 'D'], ['3', '2']] ∧
      tokens ['R', 'E', 'A', 'D', ' ', '3', '3'] [] = [['R', 'E', 'A', 'D'], ['3', '3']] ∧
      tokens ['P', 'E', 'E', 'K', ' ', '3', '2'] [] = [['P', 'E', 'E', 'K'], ['3', '2']] ∧
      tokens ['P', 'E', 'E', 'K', ' ', '3', '3'] [] = [['P', 'E', 'E', 'K'], ['3', '3']]) ∧
    (parseNumber ['0', 'x', 'F', 'F', 'F', 'F', 'F', 'F', 'F'] = some (2 ^ 28 - 1) ∧
      parseNumber ['0', 'x', '1', '0', '0', '0', '0', '0', '0', '0'] = some (2 ^ 28) ∧
      tokens ['R', 'E', 'A', 'D', 'B', ' ', '0', 'x', 'F', 'F', 'F', 'F', 'F', 'F', 'F'] [] =
        [['R', 'E', 'A', 'D', 'B'], ['0', 'x', 'F', 'F', 'F', 'F', 'F', 'F', 'F']] ∧
      tokens ['R', 'E', 'A', 'D', 'B', ' ', '0', 'x', '1', '0', '0', '0', '0', '0', '0', '0'] [] =
        [['R', 'E', 'A', 'D', 'B'], ['0', 'x', '1', '0', '0', '0', '0', '0', '0', '0']]) ∧
    (parseNumber ['1', '5'] = some 15 ∧ parseNumber ['1', '6'] = some 16 ∧
      tokens ['R', 'E', 'A', 'D', '_', 'R', 'E', 'G', ' ', '1', '5'] [] =
        [['R', 'E', 'A', 'D', '_', 'R', 'E', 'G'], ['1', '5']] ∧
      tokens ['R', 'E', 'A', 'D', '_', 'R', 'E', 'G', ' ', '1', '6'] [] =
        [['R', 'E', 'A', 'D', '_', 'R', 'E', 'G'], ['1', '6']]) :=
  ⟨by rfl, by decide, by decide, by decide⟩

/-- `SEEK 8`: the block has no such command (R17). -/
theorem witness_OtherMnemonicsAreRefused :
    tokens ['S', 'E', 'E', 'K', ' ', '8'] [] = ['S', 'E', 'E', 'K'] :: [['8']] ∧
    ['S', 'E', 'E', 'K'] ∉ [['R', 'E', 'A', 'D'], ['P', 'E', 'E', 'K'], ['E', 'X', 'H', 'A', 'U', 'S', 'T', 'E', 'D'],
      ['R', 'E', 'A', 'D', 'B'], ['R', 'E', 'S', 'E', 'T'], ['L', 'O', 'A', 'D'],
      ['R', 'E', 'A', 'D', '_', 'R', 'E', 'G'], ['A', 'L', 'I', 'G', 'N'], ['S', 'K', 'I', 'P'],
      ['R', 'E', 'A', 'D', '_', 'B', 'E']] := by decide

theorem witness_PseudoInstructionsExpand : parseNumber ['3', '2'] = some 32 ∧ parseNumber ['4'] = some 4 := by decide

end Sys2Proof.Tests
end

section
/-! PROOFS. 00_scope.md: a step takes one operation and runs it (R12, R16), and the parameters stand (R6). -/

namespace Sys2Proof.Machine

/-! ## What a step takes and runs -/

/-- The first waiting operation is the one taken. -/
theorem State.takeOperation_of_pending {s : State} {op : Operation} {rest : List Operation}
    (hp : s.pending = op :: rest) : s.takeOperation = some (op, { s with pending := rest }) := by
  unfold State.takeOperation
  rw [hp]

/-- A step whose operation decodes is the meaning of the decoded instruction (R12), well formed or not. -/
theorem step_of_decode_ok {s : State} {op : Operation} {rest : List Operation} {i : Instr}
    (hp : s.pending = op :: rest) (hi : decode op = .ok i) : step s = exec i { s with pending := rest } := by
  unfold step
  rw [State.takeOperation_of_pending hp]
  simp only [hi]

/-! ## The next states that Laws/Exec.lean does not list -/

/-- RESET empties the stream and answers 0 (R73). -/
theorem execReset_next {s t : State} (h : execReset s = .next t) : t = (s.install [] .ok).respondHost 0 := by
  cases h
  rfl

/-- READ_REG only answers (R75). -/
theorem execReadReg_next {s t : State} {r : BitVec 4} (h : execReadReg r s = .next t) :
    t = s.respondHost (s.readReg r) := by
  cases h
  rfl

/-- A reserved host word only answers (R61). -/
theorem execReservedHostWord_next {s t : State} (h : execReservedHostWord s = .next t) : t = s.respondHost 0 := by
  cases h
  rfl

/-! ## The fields that stand outside the block's meanings -/

/-- The parameters and the waiting operations stand: the two fields of the model's own that no meaning writes
(assumption logs 1 and 2). -/
structure SurroundingsKept (s t : State) : Prop where
  cfg : t.cfg = s.cfg
  pending : t.pending = s.pending

theorem SurroundingsKept.respond (s : State) (c : BitVec 4) (v : Word) (a : BitVec 6) (bs : List Byte) :
    SurroundingsKept s (s.respond c v a bs) :=
  ⟨s.respond_cfg c v a bs, s.respond_pending c v a bs⟩

theorem SurroundingsKept.respondHost (s : State) (w : Word) : SurroundingsKept s (s.respondHost w) :=
  ⟨s.respondHost_cfg w, s.respondHost_pending w⟩

theorem SurroundingsKept.raise (s : State) (e : StatusCode) : SurroundingsKept s (s.raise e) :=
  ⟨s.raise_cfg e, s.raise_pending e⟩

theorem SurroundingsKept.setPos_respond (s : State) (p : Nat) (c : BitVec 4) (v : Word) (a : BitVec 6)
    (bs : List Byte) : SurroundingsKept s ((s.setPos p).respond c v a bs) :=
  ⟨by simp, by simp⟩

theorem SurroundingsKept.install_respondHost (s : State) (data : List Byte) (e : StatusCode) (w : Word) :
    SurroundingsKept s ((s.install data e).respondHost w) :=
  ⟨by simp, by simp⟩

/-- No instruction changes the parameters, or takes, drops or adds a waiting operation. -/
theorem exec_keeps_surroundings {i : Instr} {s t : State} (h : exec i s = .next t) : SurroundingsKept s t := by
  cases i with
  | read n =>
    rcases execRead_next h with ⟨-, rfl⟩ | ⟨-, -, rfl⟩ | ⟨-, -, -, rfl⟩ | ⟨-, -, -, rfl⟩
    · exact .respond ..
    · exact .raise ..
    · exact .raise ..
    · exact .setPos_respond ..
  | peek n =>
    rcases execPeek_next h with ⟨-, rfl⟩ | ⟨-, -, rfl⟩ | ⟨-, -, rfl⟩
    · exact .respond ..
    · exact .raise ..
    · exact .respond ..
  | exhausted =>
    rcases execExhausted_next h with ⟨-, rfl⟩ | ⟨-, rfl⟩
    · exact .respond ..
    · exact .respond ..
  | readb k =>
    rcases execReadb_next h with ⟨-, rfl⟩ | ⟨-, -, rfl⟩ | ⟨-, -, rfl⟩
    · exact .respond ..
    · exact .raise ..
    · exact .setPos_respond ..
  | reset =>
    obtain rfl := execReset_next h
    exact .install_respondHost ..
  | load data =>
    rcases execLoad_next h with ⟨-, rfl⟩ | ⟨-, rfl⟩
    · exact .install_respondHost ..
    · exact .install_respondHost ..
  | readReg r =>
    obtain rfl := execReadReg_next h
    exact .respondHost ..

/-- Nor does a word that is no instruction, on either port (R61, R79). -/
theorem execUndecoded_keeps_surroundings {e : DecodeError} {s t : State} (h : execUndecoded e s = .next t) :
    SurroundingsKept s t := by
  cases e with
  | illegalCommand =>
    rcases execIllegalCommand_next h with ⟨-, rfl⟩ | ⟨-, rfl⟩
    · exact .respond ..
    · exact .raise ..
  | reservedHostWord =>
    obtain rfl := execReservedHostWord_next h
    exact .respondHost ..

/-- What a step leaves of the surroundings: all but the operation it takes off its port. -/
theorem step_keeps_surroundings {s t : State} (h : step s = .next t) :
    SurroundingsKept { s with pending := s.pending.tail } t := by
  rcases step_next h with ⟨hp, rfl⟩ | ⟨op, rest, i, hp, -, hi⟩ | ⟨op, rest, e, hp, -, he⟩
  · exact ⟨rfl, by simp [hp]⟩
  · rw [hp]
    exact exec_keeps_surroundings hi
  · rw [hp]
    exact execUndecoded_keeps_surroundings he

/-! ## The statements -/

/-- Settles O12: no meaning touches the waiting operations, so only the one the step takes is gone. -/
theorem stepTakesOneOperationInOrder : Obligations.StepTakesOneOperationInOrder :=
  fun _ _ h => (step_keeps_surroundings h).pending

/-- Settles O20: no meaning touches the parameters, and taking an operation does not either. -/
theorem stepKeepsTheParameters : Obligations.StepKeepsTheParameters :=
  fun _ _ h => (step_keeps_surroundings h).cfg

/-- Settles O8. Well-formedness is not needed: `step` runs whatever the word decodes to. -/
theorem stepRunsTheDecodedInstruction : Obligations.StepRunsTheDecodedInstruction :=
  fun _ _ _ _ hp hi _ => step_of_decode_ok hp hi

/-- Settles O49, from the bound that the type of the parameter carries. -/
theorem parameterLetsPositionsFit : Obligations.ParameterLetsPositionsFit :=
  ⟨fun c => Nat.le_sub_one_of_lt c.bits_lt, rfl⟩

end Sys2Proof.Machine
end

section
/-! PROOFS. 10_state.md: what an operation may leave behind on its port (R25), and what follows for the registers
(R17 to R21), the frames (R45), the outputs (R14) and the bits already read (R24, R27). -/

namespace Sys2Proof.Machine

/-! ## The state a command leaves -/

/-- The state a command leaves when it answers `r` with POS at `p`: STATUS.CODE is the response's status (R25). -/
def State.answer (s : State) (p : Word) (r : CmdResponse) : State :=
  { s with statusCode := r.status, pos := p, response := some (.command r) }

section answer
variable (s : State) (p : Word) (r : CmdResponse)

@[simp] theorem State.answer_buf : (s.answer p r).buf = s.buf := rfl
@[simp] theorem State.answer_len : (s.answer p r).len = s.len := rfl
@[simp] theorem State.answer_pos : (s.answer p r).pos = p := rfl
@[simp] theorem State.answer_statusCode : (s.answer p r).statusCode = r.status := rfl
@[simp] theorem State.answer_cfg : (s.answer p r).cfg = s.cfg := rfl
@[simp] theorem State.answer_pending : (s.answer p r).pending = s.pending := rfl
@[simp] theorem State.answer_response : (s.answer p r).response = some (.command r) := rfl

end answer

/-- Raising an error is such an answer, with POS at the failing command (R81). -/
theorem State.raise_eq_answer (s : State) (e : StatusCode) : s.raise e = s.answer s.pos ⟨e.number, 0, 0, []⟩ := rfl

/-- So is a response that reports the current code. -/
theorem State.respond_eq_answer {s : State} {c : BitVec 4} (hc : s.statusCode = c) (v : Word) (a : BitVec 6)
    (bs : List Byte) : s.respond c v a bs = s.answer s.pos ⟨c, v, a, bs⟩ := by
  subst hc
  rfl

theorem State.setPos_respond_eq_answer {s : State} {c : BitVec 4} (hc : s.statusCode = c) (p : Nat) (v : Word)
    (a : BitVec 6) (bs : List Byte) :
    (s.setPos p).respond c v a bs = s.answer (BitVec.ofNat 32 p) ⟨c, v, a, bs⟩ := by
  subst hc
  rfl

/-! ## What a command may answer -/

/-- A bit position inside a legal stream fits POS (R6, R20). -/
theorem Inv.toNat_ofNat_pos {s : State} (hs : Inv s) {p : Nat} (hp : p ≤ s.bitLen) :
    (BitVec.ofNat 32 p).toNat = p := by
  have hlen := hs.lenLegal
  have hcfg := s.cfg.bits_lt
  unfold State.bitLen at hp
  rw [BitVec.toNat_ofNat]
  exact Nat.mod_eq_of_lt (by omega)

/-- What R17, R20, R21 and R25 leave to a command that answers `r` with POS at `p`. -/
structure Reply (s : State) (p : Word) (r : CmdResponse) : Prop where
  /-- POS moves forward only, and stays inside the stream. -/
  forward : Inv s → s.pos.toNat ≤ p.toNat ∧ p.toNat ≤ s.bitLen
  /-- CODE stands, or becomes that of an error a command raises (R80). -/
  code : r.status = s.statusCode ∨ r.status = 5 ∨ r.status = 7
  avail : r.avail.toNat ≤ 32
  bytes : r.bytes.length ≤ 2 ^ 28 - 1
  silent : r.status ≠ 0 → r.value = 0 ∧ r.avail = 0 ∧ r.bytes = []

/-- Under the invariant an answer may leave POS where it is. -/
theorem Inv.pos_stays {s : State} (hs : Inv s) : s.pos.toNat ≤ s.pos.toNat ∧ s.pos.toNat ≤ s.bitLen :=
  ⟨Nat.le_refl _, hs.posLegal⟩

/-- An answer without data, as every error's is (R25). -/
theorem Reply.of_empty {s : State} {c : BitVec 4} (hc : c = s.statusCode ∨ c = 5 ∨ c = 7) :
    Reply s s.pos ⟨c, 0, 0, []⟩ where
  forward := Inv.pos_stays
  code := hc
  avail := by simp
  bytes := by simp
  silent := fun _ => ⟨rfl, rfl, rfl⟩

/-- An answer with data, which only the running state gives. -/
theorem Reply.of_running {s : State} {p v : Word} {a : BitVec 6} {bs : List Byte} (hs : s.statusCode = 0)
    (hp : Inv s → s.pos.toNat ≤ p.toNat ∧ p.toNat ≤ s.bitLen) (ha : a.toNat ≤ 32) (hb : bs.length ≤ 2 ^ 28 - 1) :
    Reply s p ⟨0, v, a, bs⟩ where
  forward := hp
  code := .inl hs.symm
  avail := ha
  bytes := hb
  silent := fun h => absurd rfl h

/-- `t` is a state that a command may leave from `s`. -/
def CommandAnswer (s t : State) : Prop := ∃ p r, Reply s p r ∧ t = s.answer p r

/-- In the error state a command reports the recorded code (R82). -/
theorem CommandAnswer.recorded (s : State) : CommandAnswer s (s.respond s.statusCode 0 0 []) :=
  ⟨_, _, Reply.of_empty (.inl rfl), State.respond_eq_answer rfl 0 0 []⟩

theorem CommandAnswer.raised (s : State) {e : StatusCode} (he : e.number = 5 ∨ e.number = 7) :
    CommandAnswer s (s.raise e) :=
  ⟨_, _, Reply.of_empty (.inr he), s.raise_eq_answer e⟩

/-- A command that completes without moving POS and returns no bytes: PEEK or EXHAUSTED. -/
theorem CommandAnswer.stayed {s : State} (hs : s.statusCode = 0) (v : Word) {a : BitVec 6} (ha : a.toNat ≤ 32) :
    CommandAnswer s (s.respond 0 v a []) :=
  ⟨_, _, Reply.of_running hs Inv.pos_stays ha (by simp), State.respond_eq_answer hs v a []⟩

/-- A command that completes and moves POS up to `p`, inside the stream: READ or READB. -/
theorem CommandAnswer.advanced {s : State} {p : Nat} (hs : s.statusCode = 0) (hp : s.pos.toNat ≤ p)
    (hle : p ≤ s.bitLen) (v : Word) {bs : List Byte} (hb : bs.length ≤ 2 ^ 28 - 1) :
    CommandAnswer s ((s.setPos p).respond 0 v 0 bs) := by
  refine ⟨_, _, Reply.of_running hs (fun hi => ?_) (by simp) hb, State.setPos_respond_eq_answer hs p v 0 bs⟩
  rw [hi.toNat_ofNat_pos hle]
  exact ⟨hp, hle⟩

/-- Every command leaves a state that R17, R20, R21 and R25 allow. -/
theorem exec_command_answers {i : Instr} {s t : State} (hc : i.isCommand = true) (h : exec i s = .next t) :
    CommandAnswer s t := by
  cases i with
  | read n =>
    rcases execRead_next h with ⟨-, rfl⟩ | ⟨-, -, rfl⟩ | ⟨-, -, -, rfl⟩ | ⟨hs, -, hle, rfl⟩
    · exact .recorded s
    · exact .raised s (.inr rfl)
    · exact .raised s (.inl rfl)
    · exact .advanced hs (Nat.le_add_right ..) hle _ (by simp)
  | peek n =>
    rcases execPeek_next h with ⟨-, rfl⟩ | ⟨-, -, rfl⟩ | ⟨hs, hn, rfl⟩
    · exact .recorded s
    · exact .raised s (.inr rfl)
    · exact .stayed hs _ (by rw [BitVec.toNat_ofNat]; omega)
  | exhausted =>
    rcases execExhausted_next h with ⟨-, rfl⟩ | ⟨hs, rfl⟩
    · exact .recorded s
    · exact .stayed hs _ (by simp)
  | readb k =>
    rcases execReadb_next h with ⟨-, rfl⟩ | ⟨-, -, rfl⟩ | ⟨hs, hle, rfl⟩
    · exact .recorded s
    · exact .raised s (.inl rfl)
    · have hp : s.pos.toNat ≤ s.readbEnd k.toNat := by unfold State.readbEnd; omega
      have hk : k.toNat ≤ 2 ^ 28 - 1 := Nat.le_sub_one_of_lt k.isLt
      exact .advanced hs hp hle _ (by simpa using hk)
  | reset => cases hc
  | load data => cases hc
  | readReg r => cases hc

/-- So does an illegal command word (R79, R82). -/
theorem execIllegalCommand_answers {s t : State} (h : execIllegalCommand s = .next t) : CommandAnswer s t := by
  rcases execIllegalCommand_next h with ⟨-, rfl⟩ | ⟨-, rfl⟩
  · exact .recorded s
  · exact .raised s (.inr rfl)

/-! ## What a host operation may leave -/

/-- `t` is a state that a host operation may leave from `s`: it only answers, or it installs a stream of legal
length with status OK or IllegalCommand (R61, R73 to R75). -/
inductive HostAnswer (s : State) : State → Prop where
  | kept (w : Word) : HostAnswer s (s.respondHost w)
  | installed (data : List Byte) (e : StatusCode) (w : Word) (fits : data.length ≤ s.cfg.maxLenBytes.val)
      (code : e = .ok ∨ e = .illegalCommand) : HostAnswer s ((s.install data e).respondHost w)

/-- An instruction that is no command is one of the three host operations (R58). -/
theorem hostOperation_of_not_isCommand {i : Instr} (hc : i.isCommand = false) :
    i = .reset ∨ (∃ data, i = .load data) ∨ ∃ r, i = .readReg r := by
  cases i with
  | reset => exact .inl rfl
  | load data => exact .inr (.inl ⟨data, rfl⟩)
  | readReg r => exact .inr (.inr ⟨r, rfl⟩)
  | read n => cases hc
  | peek n => cases hc
  | exhausted => cases hc
  | readb k => cases hc

theorem exec_host_answers {i : Instr} {s t : State} (hc : i.isCommand = false) (h : exec i s = .next t) :
    HostAnswer s t := by
  rcases hostOperation_of_not_isCommand hc with rfl | ⟨data, rfl⟩ | ⟨r, rfl⟩
  · obtain rfl := execReset_next h
    exact .installed [] .ok 0 (Nat.zero_le _) (.inl rfl)
  · rcases execLoad_next h with ⟨-, rfl⟩ | ⟨hle, rfl⟩
    · exact .installed [] .illegalCommand 7 (Nat.zero_le _) (.inr rfl)
    · exact .installed data .ok 0 hle (.inl rfl)
  · obtain rfl := execReadReg_next h
    exact .kept _

/-! ## What a step may leave -/

/-- The command port's decoder gives commands only (R88). -/
theorem isCommand_of_decode_command {w : Word} {i : Instr} (h : decode (.command w) = .ok i) :
    i.isCommand = true := by
  simp only [decode, decodeCommand] at h
  split_ifs at h <;> cases h <;> rfl

/-- The host port's decoder gives host operations only (R88). -/
theorem isCommand_of_decode_host {w : Word} {payload : List Byte} {i : Instr}
    (h : decode (.host w payload) = .ok i) : i.isCommand = false := by
  simp only [decode, decodeHost] at h
  split_ifs at h <;> cases h <;> rfl

theorem error_of_decode_command {w : Word} {e : DecodeError} (h : decode (.command w) = .error e) :
    e = .illegalCommand := by
  simp only [decode, decodeCommand] at h
  split_ifs at h
  cases h
  rfl

theorem error_of_decode_host {w : Word} {payload : List Byte} {e : DecodeError}
    (h : decode (.host w payload) = .error e) : e = .reservedHostWord := by
  simp only [decode, decodeHost] at h
  split_ifs at h
  cases h
  rfl

/-- What the operation `op`, taken by a step, may leave from `s`: what its port allows. -/
def PortAnswer : Operation → State → State → Prop
  | .command _ => CommandAnswer
  | .host _ _ => HostAnswer

/-- An operation that decodes leaves what its port allows. -/
theorem portAnswer_of_decode_ok {op : Operation} {i : Instr} {s t : State} (hd : decode op = .ok i)
    (h : exec i s = .next t) : PortAnswer op s t := by
  cases op with
  | command w => exact exec_command_answers (isCommand_of_decode_command hd) h
  | host w payload => exact exec_host_answers (isCommand_of_decode_host hd) h

/-- So does one that decodes to no instruction. -/
theorem portAnswer_of_decode_error {op : Operation} {e : DecodeError} {s t : State} (hd : decode op = .error e)
    (h : execUndecoded e s = .next t) : PortAnswer op s t := by
  cases op with
  | command w =>
    obtain rfl := error_of_decode_command hd
    exact execIllegalCommand_answers h
  | host w payload =>
    obtain rfl := error_of_decode_host hd
    obtain rfl := execReservedHostWord_next h
    exact .kept 0

/-- Every step is idle, or leaves what the port of the operation it takes allows (R25). -/
theorem step_answers {s t : State} (h : step s = .next t) :
    (s.pending = [] ∧ t = s) ∨
    ∃ op rest, s.pending = op :: rest ∧ PortAnswer op { s with pending := rest } t := by
  rcases step_next h with hidle | ⟨op, rest, i, hp, hd, hi⟩ | ⟨op, rest, e, hp, hd, he⟩
  · exact .inl hidle
  · exact .inr ⟨op, rest, hp, portAnswer_of_decode_ok hd hi⟩
  · exact .inr ⟨op, rest, hp, portAnswer_of_decode_error hd he⟩

/-! ## The invariant -/

/-- The invariant says nothing of the waiting operations. -/
theorem Inv.with_pending {s : State} (hs : Inv s) (ops : List Operation) : Inv { s with pending := ops } :=
  ⟨hs.canonical, hs.within, hs.lenLegal, hs.posLegal, hs.codeLegal⟩

theorem Inv.respondHost {s : State} (hs : Inv s) (w : Word) : Inv (s.respondHost w) :=
  ⟨hs.canonical, hs.within, hs.lenLegal, hs.posLegal, hs.codeLegal⟩

theorem Inv.of_reply {s : State} {p : Word} {r : CmdResponse} (hs : Inv s) (hr : Reply s p r) :
    Inv (s.answer p r) where
  canonical := hs.canonical
  within := hs.within
  lenLegal := hs.lenLegal
  posLegal := (hr.forward hs).2
  codeLegal := by
    rcases hr.code with hc | hc
    · simpa [hc] using hs.codeLegal
    · exact .inr hc

/-- Installing a stream of legal length gives the invariant, whatever the state was (R83). -/
theorem Inv.install {s : State} {data : List Byte} {e : StatusCode} (fits : data.length ≤ s.cfg.maxLenBytes.val)
    (code : e = .ok ∨ e = .illegalCommand) : Inv (s.install data e) := by
  have hlen : (BitVec.ofNat 32 data.length).toNat = data.length := by
    have := s.cfg.bits_lt
    rw [BitVec.toNat_ofNat]
    exact Nat.mod_eq_of_lt (by omega)
  refine ⟨Memory.wf_ofBytes data, fun c hc => ?_, ?_, by simp, ?_⟩
  · rw [State.install_len, hlen]
    exact Memory.lt_of_mem_ofBytes hc
  · rw [State.install_len, hlen]
    exact fits
  · rcases code with rfl | rfl
    · exact .inl rfl
    · exact .inr (.inr rfl)

theorem Inv.of_portAnswer {op : Operation} {s t : State} (hs : Inv s) (h : PortAnswer op s t) : Inv t := by
  cases op with
  | command w =>
    obtain ⟨p, r, hr, rfl⟩ := h
    exact hs.of_reply hr
  | host w payload =>
    cases h with
    | kept w => exact hs.respondHost w
    | installed data e w fits code => exact (Inv.install fits code).respondHost w

/-- Settles O46: each of the ports' possible answers keeps the invariant. -/
theorem everyStepKeepsTheInvariant : Obligations.EveryStepKeepsTheInvariant := by
  intro s t hs h
  rcases step_answers h with ⟨-, rfl⟩ | ⟨op, rest, -, ha⟩
  · exact hs
  · exact (hs.with_pending rest).of_portAnswer ha

/-! ## Responses -/

theorem HostAnswer.response {s t : State} (h : HostAnswer s t) : ∃ w, t.response = some (.host w) := by
  cases h with
  | kept w => exact ⟨w, rfl⟩
  | installed data e w fits code => exact ⟨w, rfl⟩

/-- Settles O13: the answers that a port allows are responses of its kind. -/
theorem everyOperationAnswersOnItsPort : Obligations.EveryOperationAnswersOnItsPort := by
  intro s t rest h
  rcases step_answers h with ⟨hidle, -⟩ | ⟨op, rest', hp, ha⟩
  · simp [hidle]
  · refine ⟨fun w hw => ?_, fun w payload hw => ?_⟩
    · obtain ⟨rfl, -⟩ := List.cons.inj (hp.symm.trans hw)
      obtain ⟨p, r, -, rfl⟩ := ha
      exact ⟨r, rfl⟩
    · obtain ⟨rfl, -⟩ := List.cons.inj (hp.symm.trans hw)
      exact ha.response

/-- A command's response keeps R25's law, since CODE becomes its status. -/
theorem ResponseInv.of_reply {s : State} {p : Word} {r : CmdResponse} (hr : Reply s p r) :
    ResponseInv (s.answer p r) := by
  intro r' hr'
  obtain rfl : r = r' := by simpa using hr'
  exact ⟨rfl, hr.avail, hr.bytes, hr.silent⟩

/-- The law says nothing of a host word. -/
theorem responseInv_of_host {s : State} {w : Word} (h : s.response = some (.host w)) : ResponseInv s := by
  intro r hr
  rw [h] at hr
  cases hr

/-- Settles O47: whatever operation a step takes, its own answer keeps the law. -/
theorem everyStepKeepsTheResponseLaw : Obligations.EveryStepKeepsTheResponseLaw := by
  intro s t hs h
  rcases step_answers h with ⟨-, rfl⟩ | ⟨op, rest, -, ha⟩
  · exact hs
  · cases op with
    | command w =>
      obtain ⟨p, r, hr, rfl⟩ := ha
      exact .of_reply hr
    | host w payload =>
      obtain ⟨v, hv⟩ := ha.response
      exact responseInv_of_host hv

/-! ## Frames -/

/-- Settles O40: the bounds are those of the command's answer, and LEN stands. -/
theorem commandsMovePosForwardOnly : Obligations.CommandsMovePosForwardOnly := by
  intro i s t hs hc h
  obtain ⟨p, r, hr, rfl⟩ := exec_command_answers hc h
  exact hr.forward hs

theorem execPeek_pos {n : BitVec 6} {s t : State} (h : execPeek n s = .next t) : t.pos = s.pos := by
  rcases execPeek_next h with ⟨-, rfl⟩ | ⟨-, -, rfl⟩ | ⟨-, -, rfl⟩ <;> rfl

theorem execExhausted_pos {s t : State} (h : execExhausted s = .next t) : t.pos = s.pos := by
  rcases execExhausted_next h with ⟨-, rfl⟩ | ⟨-, rfl⟩ <;> rfl

/-- What one buffer and one LEN show is one stream. -/
theorem StreamKept.of_buf {s t : State} (hbuf : t.buf = s.buf) (hlen : t.len = s.len) (hcfg : t.cfg = s.cfg) :
    StreamKept s t :=
  ⟨fun a => by unfold State.readByte; rw [hbuf, hlen], hlen, hcfg⟩

/-- No operation but RESET and LOAD writes BUF or LEN (R18, R19). -/
theorem exec_keeps_buf_len {i : Instr} {s t : State} (h : exec i s = .next t) (hreset : i ≠ .reset)
    (hload : ∀ d, i ≠ .load d) : t.buf = s.buf ∧ t.len = s.len := by
  cases hc : i.isCommand with
  | true =>
    obtain ⟨p, r, -, rfl⟩ := exec_command_answers hc h
    exact ⟨rfl, rfl⟩
  | false =>
    rcases hostOperation_of_not_isCommand hc with rfl | ⟨d, rfl⟩ | ⟨r, rfl⟩
    · exact absurd rfl hreset
    · exact absurd rfl (hload d)
    · obtain rfl := execReadReg_next h
      exact ⟨rfl, rfl⟩

/-- Only READ and READB, beside RESET and LOAD, write POS (R20, R45). -/
theorem exec_keeps_pos {i : Instr} {s t : State} (h : exec i s = .next t) (hreset : i ≠ .reset)
    (hload : ∀ d, i ≠ .load d) (hread : ∀ n, i ≠ .read n) (hreadb : ∀ k, i ≠ .readb k) : t.pos = s.pos := by
  cases i with
  | read n => exact absurd rfl (hread n)
  | peek n => exact execPeek_pos h
  | exhausted => exact execExhausted_pos h
  | readb k => exact absurd rfl (hreadb k)
  | reset => exact absurd rfl hreset
  | load d => exact absurd rfl (hload d)
  | readReg r =>
    obtain rfl := execReadReg_next h
    rfl

/-- Settles O39, register by register. -/
theorem onlyResetAndLoadTouchTheStream : Obligations.OnlyResetAndLoadTouchTheStream := by
  intro i s t h hreset hload
  obtain ⟨hcfg, hpending⟩ := exec_keeps_surroundings h
  obtain ⟨hbuf, hlen⟩ := exec_keeps_buf_len h hreset hload
  refine ⟨.of_buf hbuf hlen hcfg, hbuf, hpending, exec_keeps_pos h hreset hload, ?_⟩
  rintro ⟨r, rfl⟩
  obtain rfl := execReadReg_next h
  rfl

/-! ## What a command sees of the stream -/

namespace SameUnread

variable {s t : State}

/-- A state whose stream, POS and CODE are those of another shows the same unread bits. -/
theorem of_buf (hbuf : t.buf = s.buf) (hlen : t.len = s.len) (hpos : t.pos = s.pos)
    (hcode : t.statusCode = s.statusCode) : SameUnread s t :=
  ⟨hlen, hpos, hcode, fun p _ _ => State.streamBit_congr hbuf p⟩

theorem bitLen (h : SameUnread s t) : t.bitLen = s.bitLen := by
  unfold State.bitLen
  rw [h.len]

theorem remaining (h : SameUnread s t) : t.remaining = s.remaining := by
  unfold State.remaining
  rw [h.bitLen, h.pos]

theorem isExhausted (h : SameUnread s t) : t.isExhausted = s.isExhausted := by
  unfold State.isExhausted
  rw [h.bitLen, h.pos]

theorem readbEnd (h : SameUnread s t) (k : Nat) : t.readbEnd k = s.readbEnd k := by
  unfold State.readbEnd
  rw [h.pos]

theorem bitsFrom (h : SameUnread s t) {p n : Nat} (hp : s.pos.toNat ≤ p) (hle : p + n ≤ s.bitLen) :
    t.bitsFrom p n = s.bitsFrom p n := by
  induction n generalizing p with
  | zero => rfl
  | succ n ih =>
    have hbit : t.streamBit p = s.streamBit p := h.unread p hp (by omega)
    have hrest : t.bitsFrom (p + 1) n = s.bitsFrom (p + 1) n := ih (by omega) (by omega)
    simp only [State.bitsFrom, hbit, hrest]

theorem bits (h : SameUnread s t) (n : Nat) : t.bits t.pos.toNat n = s.bits s.pos.toNat n := by
  unfold State.bits
  rw [h.bitLen, h.pos]
  split
  · rw [h.bitsFrom (Nat.le_refl _) ‹_›]
  · rfl

end SameUnread

/-- A byte is the eight stream bits it holds (R31). -/
theorem Memory.read_eq_of_streamBit {s t : State} {a : Nat}
    (h : ∀ p, p / 8 = a → t.streamBit p = s.streamBit p) : t.buf.read a = s.buf.read a := by
  apply BitVec.eq_of_getLsbD_eq
  intro j hj
  have hbit := h (8 * a + (7 - j)) (by omega)
  have hdiv : (8 * a + (7 - j)) / 8 = a := by omega
  have hmod : 7 - (8 * a + (7 - j)) % 8 = j := by omega
  simp only [State.streamBit, hdiv, hmod] at hbit
  exact Function.LeftInverse.injective Bool.ofNat_toNat hbit

/-- The whole bytes behind POS are made of unread bits. -/
theorem SameUnread.memRead {s t : State} (h : SameUnread s t) {a : Nat} (ha : s.pos.toNat ≤ 8 * a) (n : Nat) :
    t.memRead a n = s.memRead a n := by
  unfold State.memRead
  rw [h.len]
  split
  · congr 1
    apply List.map_congr_left
    intro i hi
    have hi : i < n := List.mem_range.mp hi
    refine Memory.read_eq_of_streamBit fun p hp => h.unread p (by omega) ?_
    unfold State.bitLen
    omega
  · rfl

/-- From `t`, `y` gives the very answer that `x` gives from `s`. -/
def AnswerAlike (s t : State) (x y : Result) : Prop :=
  ∀ s', x = .next s' → ∃ p r, s' = s.answer p r ∧ y = .next (t.answer p r)

section checks
variable {s t : State} {x y : Result}

theorem AnswerAlike.of_eq {s' t' : State} {p : Word} {r : CmdResponse} (hs : s' = s.answer p r)
    (ht : t' = t.answer p r) : AnswerAlike s t (.next s') (.next t') := by
  rintro _ ⟨⟩
  exact ⟨p, r, hs, by rw [ht]⟩

theorem SameUnread.respond_alike (h : SameUnread s t) {c : BitVec 4} (hc : s.statusCode = c) (v : Word)
    (a : BitVec 6) (bs : List Byte) : AnswerAlike s t (.next (s.respond c v a bs)) (.next (t.respond c v a bs)) :=
  .of_eq (State.respond_eq_answer hc v a bs) (h.pos ▸ State.respond_eq_answer (h.code.trans hc) v a bs)

theorem SameUnread.raise_alike (h : SameUnread s t) (e : StatusCode) :
    AnswerAlike s t (.next (s.raise e)) (.next (t.raise e)) :=
  .of_eq (s.raise_eq_answer e) (h.pos ▸ t.raise_eq_answer e)

theorem SameUnread.whenRunning_alike (h : SameUnread s t) (hxy : s.statusCode = 0 → AnswerAlike s t x y) :
    AnswerAlike s t (whenRunning s x) (whenRunning t y) := by
  by_cases hs : s.statusCode = 0#4
  · rw [whenRunning_of_running hs, whenRunning_of_running (h.code.trans hs)]
    exact hxy hs
  · rw [whenRunning_of_error hs, whenRunning_of_error (h.code ▸ hs), h.code]
    exact h.respond_alike rfl 0 0 []

theorem SameUnread.whenLegal_alike (h : SameUnread s t) (legal : Bool) (hxy : AnswerAlike s t x y) :
    AnswerAlike s t (whenLegal s legal x) (whenLegal t legal y) := by
  cases legal with
  | true => exact hxy
  | false => exact h.raise_alike .illegalCommand

theorem SameUnread.whenWithin_alike (h : SameUnread s t) (within : Bool) (hxy : AnswerAlike s t x y) :
    AnswerAlike s t (whenWithin s within x) (whenWithin t within y) := by
  cases within with
  | true => exact hxy
  | false => exact h.raise_alike .truncatedStream

theorem AnswerAlike.withData {α : Type} (data : Option α) {f g : α → State}
    (hfg : ∀ d, AnswerAlike s t (.next (f d)) (.next (g d))) :
    AnswerAlike s t (withData data f) (withData data g) := by
  cases data with
  | none => rintro _ ⟨⟩
  | some d => exact hfg d

end checks

/-- A command answers alike from two states with the same LEN, POS, CODE and unread bits: every check and every datum
of its meaning depends on these alone. -/
theorem exec_command_alike {i : Instr} {s t : State} (h : SameUnread s t) (hc : i.isCommand = true) :
    AnswerAlike s t (exec i s) (exec i t) := by
  cases i with
  | read n =>
    refine h.whenRunning_alike fun hs => h.whenLegal_alike _ ?_
    rw [h.remaining, h.bits, h.pos]
    exact h.whenWithin_alike _ (.withData _ fun v =>
      .of_eq (State.setPos_respond_eq_answer hs ..) (State.setPos_respond_eq_answer (h.code.trans hs) ..))
  | peek n =>
    refine h.whenRunning_alike fun hs => h.whenLegal_alike _ ?_
    rw [h.remaining, h.bits]
    exact .withData _ fun v => h.respond_alike hs _ _ _
  | exhausted =>
    refine h.whenRunning_alike fun hs => ?_
    rw [h.isExhausted]
    exact h.respond_alike hs _ _ _
  | readb k =>
    refine h.whenRunning_alike fun hs => ?_
    have hskip : s.pos.toNat ≤ 8 * ((s.pos.toNat + alignSkip s.pos.toNat) / 8) := by
      have := alignSkip_spec s.pos.toNat
      omega
    rw [h.readbEnd, h.bitLen, h.pos, h.memRead hskip]
    exact h.whenWithin_alike _ (.withData _ fun bs =>
      .of_eq (State.setPos_respond_eq_answer hs ..) (State.setPos_respond_eq_answer (h.code.trans hs) ..))
  | reset => cases hc
  | load data => cases hc
  | readReg r => cases hc

/-- The same answer leaves two states alike, when POS has not moved back. -/
theorem SameUnread.answer {s t : State} (h : SameUnread s t) {p : Word} (hp : s.pos.toNat ≤ p.toNat)
    (r : CmdResponse) : SameUnread (s.answer p r) (t.answer p r) :=
  ⟨h.len, rfl, rfl, fun q hq hlt => h.unread q (Nat.le_trans hp hq) hlt⟩

/-- Settles O43: the two states give the same answer, and POS moves forward only (O40), so that what is unread after
the command was unread before it. -/
theorem commandsSeeOnlyUnreadBits : Obligations.CommandsSeeOnlyUnreadBits := by
  intro i s t s' hs _ hst hc h
  obtain ⟨hforward, -⟩ := commandsMovePosForwardOnly i s s' hs hc h
  obtain ⟨p, r, rfl, ht⟩ := exec_command_alike hst hc s' h
  exact ⟨t.answer p r, ht, rfl, hst.answer hforward r⟩

/-! ## The outputs -/

theorem execLoad_of_lt {data : List Byte} {s : State} (h : s.cfg.maxLenBytes.val < data.length) :
    execLoad data s = .next ((s.install [] .illegalCommand).respondHost 7) := if_pos h

theorem execLoad_of_le {data : List Byte} {s : State} (h : data.length ≤ s.cfg.maxLenBytes.val) :
    execLoad data s = .next ((s.install data .ok).respondHost 0) := if_neg (Nat.not_lt.mpr h)

/-- Settles O42: for a command, other outputs leave the unread bits as they are; the host operations read only the
payload, the registers and the parameters. -/
theorem noMeaningReadsTheOutputs : Obligations.NoMeaningReadsTheOutputs := by
  intro i s t r ops h
  cases hc : i.isCommand with
  | true =>
    have hsame : SameUnread s { s with response := r, pending := ops } := .of_buf rfl rfl rfl rfl
    obtain ⟨p, r', rfl, ht⟩ := exec_command_alike hsame hc t h
    exact ht
  | false =>
    rcases hostOperation_of_not_isCommand hc with rfl | ⟨data, rfl⟩ | ⟨k, rfl⟩
    · obtain rfl := execReset_next h
      rfl
    · rcases execLoad_next h with ⟨hlt, rfl⟩ | ⟨hle, rfl⟩
      · exact execLoad_of_lt hlt
      · exact execLoad_of_le hle
    · obtain rfl := execReadReg_next h
      rfl

end Sys2Proof.Machine
end

section
/-! PROOFS. 20_memory.md: the bits and bytes of the stream (R31 to R34), READB's bytes (R40, R44), and repeated
queries (R45). -/

namespace Sys2Proof.Machine

/-! ## Stream bits, bytes and the numbers they write -/

/-- A stream bit is a binary digit of the byte it stands in (R31). -/
theorem State.streamBit_eq_testBit (s : State) (p : Nat) :
    s.streamBit p = ((s.buf.read (p / 8)).toNat.testBit (7 - p % 8)).toNat := rfl

/-- Settles O23: below LEN, `readByte` gives the byte that the stream bit is a digit of. -/
theorem streamBitsAreMostSignificantFirst : Obligations.StreamBitsAreMostSignificantFirst := by
  intro s p b hb
  have hread : s.buf.read (p / 8) = b := by
    unfold State.readByte at hb
    split at hb
    · exact Option.some.inj hb
    · cases hb
  rw [State.streamBit_eq_testBit, hread, Nat.toNat_testBit]

/-- Bits read in one go are the bits read in two, the first ones the more significant (R32). -/
theorem State.bitsFrom_add (s : State) (p n m : Nat) :
    s.bitsFrom p (n + m) = s.bitsFrom p n * 2 ^ m + s.bitsFrom (p + n) m := by
  induction n generalizing p with
  | zero => simp [State.bitsFrom]
  | succ n ih =>
    rw [Nat.add_right_comm, State.bitsFrom, State.bitsFrom, ih, Nat.add_right_comm p 1 n, Nat.add_assoc p n 1,
      Nat.pow_add]
    ring

/-- Stream bits that are the low digits of `v`, most significant first, read as `v mod 2^n`. -/
theorem State.bitsFrom_eq_mod {s : State} {p n v : Nat}
    (h : ∀ i, i < n → s.streamBit (p + i) = (v.testBit (n - 1 - i)).toNat) : s.bitsFrom p n = v % 2 ^ n := by
  induction n generalizing p with
  | zero => simp [State.bitsFrom, Nat.mod_one]
  | succ n ih =>
    have hfirst : s.streamBit p = v / 2 ^ n % 2 := by
      rw [← Nat.toNat_testBit]
      exact h 0 (by omega)
    have hrest : s.bitsFrom (p + 1) n = v % 2 ^ n := ih fun i hi => by
      rw [Nat.add_assoc, Nat.add_comm 1 i, h (i + 1) (by omega), show n + 1 - 1 - (i + 1) = n - 1 - i by omega]
    rw [State.bitsFrom, hfirst, hrest, Nat.pow_succ, Nat.mod_mul]
    ring

/-- `Bits` of n bits is a number below 2^n (R66). -/
theorem State.bitsFrom_lt (s : State) (p n : Nat) : s.bitsFrom p n < 2 ^ n := by
  induction n generalizing p with
  | zero => simp [State.bitsFrom]
  | succ n ih =>
    have hfirst : s.streamBit p * 2 ^ n ≤ 1 * 2 ^ n := Nat.mul_le_mul_right _ (s.streamBit_le_one p)
    have hrest := ih (p + 1)
    rw [State.bitsFrom, Nat.pow_succ]
    omega

/-- A number of at most 32 bits fits a value. -/
theorem State.toNat_ofNat_bitsFrom (s : State) (p : Nat) {n : Nat} (hn : n ≤ 32) :
    (BitVec.ofNat 32 (s.bitsFrom p n)).toNat = s.bitsFrom p n := by
  rw [BitVec.toNat_ofNat]
  exact Nat.mod_eq_of_lt (Nat.lt_of_lt_of_le (s.bitsFrom_lt p n) (Nat.pow_le_pow_right (by omega) hn))

/-- Eight bits from a byte boundary on are the byte there. -/
theorem State.bitsFrom_byte (s : State) (a : Nat) : s.bitsFrom (8 * a) 8 = (s.buf.read a).toNat := by
  have hbits : s.bitsFrom (8 * a) 8 = (s.buf.read a).toNat % 2 ^ 8 := State.bitsFrom_eq_mod fun i hi => by
    rw [State.streamBit_eq_testBit, show (8 * a + i) / 8 = a by omega, show (8 * a + i) % 8 = i by omega]
  rw [hbits, Nat.mod_eq_of_lt (s.buf.read a).isLt]

/-- The bits of k bytes are those bytes as a big-endian number (R33). -/
theorem State.bitsFrom_bytes (s : State) (a k : Nat) :
    s.bitsFrom (8 * a) (8 * k) = ∑ j ∈ Finset.range k, (s.buf.read (a + j)).toNat * 2 ^ (8 * (k - 1 - j)) := by
  induction k generalizing a with
  | zero => rfl
  | succ k ih =>
    have hrest : s.bitsFrom (8 * a + 8) (8 * k) =
        ∑ j ∈ Finset.range k, (s.buf.read (a + (j + 1))).toNat * 2 ^ (8 * (k + 1 - 1 - (j + 1))) := by
      rw [← Nat.mul_succ, ih]
      refine Finset.sum_congr rfl fun j _ => ?_
      rw [Nat.succ_add_eq_add_succ, show k + 1 - 1 - (j + 1) = k - 1 - j by omega]
    rw [Finset.sum_range_succ', ← hrest, Nat.mul_succ, Nat.add_comm (8 * k), State.bitsFrom_add,
      State.bitsFrom_byte, Nat.add_comm]
    rfl

/-! ## Commands that complete -/

@[simp] theorem State.answer_bitLen (s : State) (p : Word) (r : CmdResponse) : (s.answer p r).bitLen = s.bitLen := rfl
@[simp] theorem State.answer_bitsFrom (s : State) (p : Word) (r : CmdResponse) (q n : Nat) :
    (s.answer p r).bitsFrom q n = s.bitsFrom q n := State.bitsFrom_congr (State.answer_buf s p r) q n

/-- A command keeps the invariant. -/
theorem Inv.of_exec_command {i : Instr} {s t : State} (hs : Inv s) (hc : i.isCommand = true)
    (h : exec i s = .next t) : Inv t := by
  obtain ⟨p, r, hr, rfl⟩ := exec_command_answers hc h
  exact hs.of_reply hr

theorem exec_read_of_le {n : BitVec 6} {s : State} (hs : s.statusCode = 0) (hn : n.toNat ≤ 32)
    (hle : s.pos.toNat + n.toNat ≤ s.bitLen) :
    exec (.read n) s = .next (s.answer (BitVec.ofNat 32 (s.pos.toNat + n.toNat))
      ⟨0, BitVec.ofNat 32 (s.bitsFrom s.pos.toNat n.toNat), 0, []⟩) := by
  have hlegal : countLegal n = true := decide_eq_true hn
  have hwithin : decide (n.toNat ≤ s.remaining) = true := decide_eq_true (by unfold State.remaining; omega)
  show execRead n s = _
  unfold execRead countOperand
  rw [whenRunning_of_running hs, hlegal, hwithin, State.bits_of_le hle, ← State.setPos_respond_eq_answer hs]
  rfl

/-- READ with its count given as a number. -/
theorem exec_read_ofNat {c : Nat} {s : State} (hs : s.statusCode = 0) (hc : c ≤ 32)
    (hle : s.pos.toNat + c ≤ s.bitLen) :
    exec (.read (BitVec.ofNat 6 c)) s = .next (s.answer (BitVec.ofNat 32 (s.pos.toNat + c))
      ⟨0, BitVec.ofNat 32 (s.bitsFrom s.pos.toNat c), 0, []⟩) := by
  have hcount : (BitVec.ofNat 6 c).toNat = c := by rw [BitVec.toNat_ofNat]; omega
  have hread := exec_read_of_le (n := BitVec.ofNat 6 c) hs (hcount.symm ▸ hc) (hcount.symm ▸ hle)
  rwa [hcount] at hread

theorem exec_readb_of_le {k : BitVec 28} {s : State} (hs : s.statusCode = 0)
    (hle : s.readbEnd k.toNat ≤ s.bitLen) :
    exec (.readb k) s = .next (s.answer (BitVec.ofNat 32 (s.readbEnd k.toNat))
      ⟨0, 0, 0, (List.range k.toNat).map fun i =>
        s.buf.read ((s.pos.toNat + alignSkip s.pos.toNat) / 8 + i)⟩) := by
  show execReadb k s = _
  unfold execReadb byteCountOperand
  rw [whenRunning_of_running hs, decide_eq_true hle, State.memRead_of_le ((s.readbEnd_le_iff _).mp hle),
    ← State.setPos_respond_eq_answer hs]
  rfl

theorem exec_readb_of_lt {k : BitVec 28} {s : State} (hs : s.statusCode = 0) (hlt : s.bitLen < s.readbEnd k.toNat) :
    exec (.readb k) s = .next (s.raise .truncatedStream) := by
  show execReadb k s = _
  unfold execReadb byteCountOperand
  rw [whenRunning_of_running hs, decide_eq_false (Nat.not_le.mpr hlt)]
  rfl

theorem exec_readb_of_error {k : BitVec 28} {s : State} (hs : s.statusCode ≠ 0) :
    exec (.readb k) s = .next (s.respond s.statusCode 0 0 []) := whenRunning_of_error hs

/-! ## READ (R33, R34) -/

/-- Settles O25: the number READ gives is that of the k bytes at POS div 8. -/
theorem alignedReadIsBigEndian : Obligations.AlignedReadIsBigEndian := by
  intro s k _ hs _ hk haligned hle
  have hpos : 8 * (s.pos.toNat / 8) = s.pos.toNat := by omega
  have hread := exec_read_ofNat hs (c := 8 * k) (by omega) (by unfold State.bitLen; omega)
  refine ⟨_, _, _, hread, rfl, State.memRead_of_le hle, ?_⟩
  rw [State.toNat_ofNat_bitsFrom s _ (by omega), ← hpos, State.bitsFrom_bytes, hpos]
  refine Finset.sum_congr rfl fun j hj => ?_
  have hj : j < k := Finset.mem_range.mp hj
  simp [hj]

theorem issue_singleton {i : Instr} {s t : State} {r : Response} (h : exec i s = .next t)
    (hr : t.response = some r) : issue [i] s = some ([r], t) := issue_cons h hr (issue_nil t)

/-- Settles O26: both parts are the split of `Bits`, and the two READs end where the one READ ends. -/
theorem splitReadsSeeTheSameBits : Obligations.SplitReadsSeeTheSameBits := by
  constructor
  · intro s p n m hle
    have hle : p + (n + m) ≤ s.bitLen := hle
    exact ⟨_, _, State.bits_of_le (by omega), State.bits_of_le (by omega),
      by rw [State.bits_of_le hle, State.bitsFrom_add]⟩
  · intro s n m hi hs hnm hle
    have hle : s.pos.toNat + (n + m) ≤ s.bitLen := hle
    have hfirst := exec_read_ofNat hs (c := n) (by omega) (by omega)
    have hboth := exec_read_ofNat hs hnm hle
    generalize ht : s.answer (BitVec.ofNat 32 (s.pos.toNat + n))
      ⟨0, BitVec.ofNat 32 (s.bitsFrom s.pos.toNat n), 0, []⟩ = t at hfirst
    have hpos : t.pos.toNat = s.pos.toNat + n := by
      rw [← ht]; exact hi.toNat_ofNat_pos (by omega)
    have hsecond := exec_read_ofNat (s := t) (c := m) (by rw [← ht]; rfl) (by omega)
      (by rw [hpos, ← ht, State.answer_bitLen]; omega)
    refine ⟨_, _, _, _, _, issue_cons hfirst (by rw [← ht]; rfl) (issue_singleton hsecond rfl),
      issue_singleton hboth rfl, ?_, ?_⟩
    · rw [State.toNat_ofNat_bitsFrom _ _ hnm, State.toNat_ofNat_bitsFrom _ _ (by omega),
        State.toNat_ofNat_bitsFrom _ _ (by omega), State.bitsFrom_add, hpos, ← ht, State.answer_bitsFrom]
    · rw [State.answer_pos, State.answer_pos, hpos, Nat.add_assoc]

/-! ## READB (R34, R40, R44) -/

/-- Settles O33, one case for each answer of READB. -/
theorem readbIsAllOrNothing : Obligations.ReadbIsAllOrNothing := by
  intro k s t h
  rcases execReadb_next h with ⟨hs, rfl⟩ | ⟨-, -, rfl⟩ | ⟨-, -, rfl⟩
  · exact ⟨_, rfl, .inr ⟨hs, rfl, rfl⟩⟩
  · exact ⟨_, rfl, .inr ⟨by decide, rfl, rfl⟩⟩
  · exact ⟨_, rfl, .inl ⟨rfl, by simp⟩⟩

theorem State.buf_read_congr {s t : State} {a : Nat} (hlen : t.len = s.len) (ha : a < s.len.toNat)
    (h : t.readByte a = s.readByte a) : t.buf.read a = s.buf.read a := by
  unfold State.readByte at h
  rw [hlen, if_pos ha, if_pos ha] at h
  exact Option.some.inj h

/-- Settles O34: the checks read LEN, POS and CODE, and the bytes delivered stand at or after the boundary. -/
theorem readbIgnoresSkippedBits : Obligations.ReadbIgnoresSkippedBits := by
  intro k s t s' _ _ hlen hpos hcode hbytes h
  have hbits : t.bitLen = s.bitLen := by unfold State.bitLen; rw [hlen]
  have hend : t.readbEnd k.toNat = s.readbEnd k.toNat := by unfold State.readbEnd; rw [hpos]
  rcases execReadb_next h with ⟨hs, rfl⟩ | ⟨hs, hlt, rfl⟩ | ⟨hs, hle, rfl⟩
  · exact ⟨_, exec_readb_of_error (hcode ▸ hs), by simp [hcode], hpos, hcode⟩
  · exact ⟨_, exec_readb_of_lt (hcode.trans hs) (by rwa [hbits, hend]), rfl, hpos, rfl⟩
  · refine ⟨_, exec_readb_of_le (hcode.trans hs) (by rwa [hbits, hend]), ?_, by simp [hend], hs.symm⟩
    rw [State.answer_response, State.respond_response, hpos]
    congr 3
    refine List.map_congr_left fun i hi => ?_
    have hi : i < k.toNat := List.mem_range.mp hi
    have hskip := alignSkip_spec s.pos.toNat
    have hin := (s.readbEnd_le_iff _).mp hle
    exact State.buf_read_congr hlen (by omega) (hbytes _ (by omega))

/-- From an aligned POS, k READs of 8 bits answer the k bytes there. -/
theorem issue_byteReads (k : Nat) {s : State} (hi : Inv s) (hs : s.statusCode = 0) (haligned : s.pos.toNat % 8 = 0)
    (hle : s.pos.toNat + 8 * k ≤ s.bitLen) :
    ∃ u, issue (List.replicate k (.read 8)) s =
        some ((List.range k).map fun j => .command ⟨0, (s.buf.read (s.pos.toNat / 8 + j)).setWidth 32, 0, []⟩, u) ∧
      u.pos.toNat = s.pos.toNat + 8 * k := by
  induction k generalizing s with
  | zero => exact ⟨s, rfl, rfl⟩
  | succ k ih =>
    have hread : exec (.read 8) s = _ := exec_read_ofNat hs (c := 8) (by omega) (by omega)
    have hvalue : s.bitsFrom s.pos.toNat 8 = (s.buf.read (s.pos.toNat / 8)).toNat := by
      rw [← State.bitsFrom_byte, show 8 * (s.pos.toNat / 8) = s.pos.toNat by omega]
    have hi' := hi.of_exec_command rfl hread
    have hpos := hi.toNat_ofNat_pos (p := s.pos.toNat + 8) (by omega)
    obtain ⟨u, hu, hend⟩ := ih hi' rfl (by rw [State.answer_pos, hpos]; omega)
      (by rw [State.answer_pos, hpos, State.answer_bitLen]; omega)
    rw [State.answer_pos, hpos] at hu hend
    refine ⟨u, ?_, by omega⟩
    rw [List.replicate_succ, issue_cons hread rfl hu, List.range_succ_eq_map, hvalue]
    simp [Nat.add_div_right, Nat.succ_add_eq_add_succ]

/-- Settles O35: both deliver the k bytes at POS div 8, since an aligned READB skips nothing. -/
theorem readbEqualsByteReads : Obligations.ReadbEqualsByteReads := by
  intro k s hi hs haligned hle
  have hskip := alignSkip_of_aligned haligned
  have hend : s.readbEnd k.toNat = s.pos.toNat + 8 * k.toNat := by unfold State.readbEnd; omega
  have hle : s.readbEnd k.toNat ≤ s.bitLen := hend ▸ hle
  obtain ⟨u, hu, hpos⟩ := issue_byteReads k.toNat hi hs haligned (hend ▸ hle)
  refine ⟨_, _, u, exec_readb_of_le hs hle, rfl, ?_, ?_⟩
  · rw [hu, hskip, List.map_map]
    rfl
  · apply BitVec.eq_of_toNat_eq
    rw [hpos, State.answer_pos, hi.toNat_ofNat_pos hle, hend]

/-! ## Repeated queries (R45) -/

/-- Settles O41: the first query changed the response alone, which no meaning reads (O42). -/
theorem peekAndExhaustedAreIdempotent : Obligations.PeekAndExhaustedAreIdempotent := by
  intro i s t hi h
  have honly : { s with response := t.response, pending := t.pending } = t := by
    rcases hi with ⟨n, hn, rfl⟩ | rfl
    · rcases execPeek_next h with ⟨-, rfl⟩ | ⟨-, hlt, -⟩ | ⟨-, -, rfl⟩
      · rfl
      · omega
      · rfl
    · rcases execExhausted_next h with ⟨-, rfl⟩ | ⟨-, rfl⟩
      · rfl
      · rfl
  have hagain : exec i { s with response := t.response, pending := t.pending } = .next t :=
    noMeaningReadsTheOutputs i s t t.response t.pending h
  rwa [honly] at hagain

end Sys2Proof.Machine
end

section
/-! PROOFS. 20_memory.md section 3: the writer's layout (R36 to R38), and the round trip through the block (R39). -/

namespace Sys2Proof.Machine

/-! ## The bits a write appends (R36, R37) -/

@[simp] theorem Writer.length_fieldBits (n v : Nat) : (Writer.fieldBits n v).length = n := by
  simp [Writer.fieldBits]

theorem Writer.getD_fieldBits {n i : Nat} (v : Nat) (hi : i < n) :
    (Writer.fieldBits n v).getD i false = v.testBit (n - 1 - i) := by
  simp [Writer.fieldBits, hi]

/-- Only the low n bits of a value are written. -/
theorem Writer.fieldBits_mod (n v : Nat) : Writer.fieldBits n (v % 2 ^ n) = Writer.fieldBits n v := by
  refine List.map_congr_left fun i hi => ?_
  have hi : i < n := List.mem_range.mp hi
  rw [Nat.testBit_mod_two_pow, decide_eq_true (by omega), Bool.true_and]

/-- Settles O50, with the new bits those of `Writer.fieldBits`. -/
theorem writerAppendsTheLowBits : Obligations.WriterAppendsTheLowBits := by
  intro bits n v
  refine ⟨⟨Writer.fieldBits n.toNat v, rfl, Writer.length_fieldBits .., fun i hi => ?_⟩, ?_⟩
  · simp [Writer.fieldBits, hi]
  · simp only [Writer.append, Writer.fieldBits_mod]

/-- Writing a byte's value writes the byte's bits, bit 7 first. -/
theorem Writer.fieldBits_byte (b : Byte) :
    Writer.fieldBits 8 b.toNat = (List.range 8).map fun i => b.getLsbD (7 - i) := rfl

/-- Settles O55: the padding goes R42's distance, and the block follows byte by byte. -/
theorem blockWritePadsWithZerosToAByte : Obligations.BlockWritePadsWithZerosToAByte := by
  intro bits data
  simp only [Writer.append, Writer.pad, alignSkip, Writer.fieldBits_byte]

/-- The bits of a block's bytes. -/
def Writer.blockBits (data : List Byte) : List Bool := data.flatMap fun b => Writer.fieldBits 8 b.toNat

@[simp] theorem Writer.length_blockBits (data : List Byte) : (Writer.blockBits data).length = 8 * data.length := by
  simp [Writer.blockBits, Nat.mul_comm]

/-- Bit `8i + j` of a block is bit j of its byte i, most significant first. -/
theorem Writer.getD_blockBits {data : List Byte} {i j : Nat} (hi : i < data.length) (hj : j < 8) :
    (Writer.blockBits data).getD (8 * i + j) false = (data.getD i 0).toNat.testBit (8 - 1 - j) := by
  induction data generalizing i with
  | nil => cases hi
  | cons b data ih =>
    have hcons : Writer.blockBits (b :: data) = Writer.fieldBits 8 b.toNat ++ Writer.blockBits data := rfl
    rw [hcons]
    cases i with
    | zero =>
      rw [List.getD_append _ _ _ _ (by simpa using hj), Nat.mul_zero, Nat.zero_add, Writer.getD_fieldBits _ hj]
      rfl
    | succ i =>
      rw [List.getD_append_right _ _ _ _ (by simp; omega), Writer.length_fieldBits,
        show 8 * (i + 1) + j - 8 = 8 * i + j by omega, ih (Nat.lt_of_succ_lt_succ hi)]
      rfl

theorem Writer.length_pad (bits : List Bool) : (Writer.pad bits).length = bits.length + alignSkip bits.length := by
  simp [Writer.pad]

/-- Behind the written bits the padding is 0 bits. -/
theorem Writer.getD_pad (bits : List Bool) (p : Nat) : (Writer.pad bits).getD p false = bits.getD p false := by
  unfold Writer.pad
  rcases Nat.lt_or_ge p bits.length with hp | hp
  · exact List.getD_append _ _ _ _ hp
  · rw [List.getD_append_right _ _ _ _ hp, List.getD_eq_default bits _ hp]
    simp

/-- A write leaves the bits before it as they were. -/
theorem Writer.append_extends (bits : List Bool) (f : WriterField) : bits <+: Writer.append bits f := by
  cases f with
  | bits n v => exact List.prefix_append ..
  | block data => exact (List.prefix_append ..).trans (List.prefix_append ..)

theorem Writer.foldl_append_extends (fields : List WriterField) (bits : List Bool) :
    bits <+: fields.foldl Writer.append bits := by
  induction fields generalizing bits with
  | nil => exact List.prefix_rfl
  | cons f fields ih => exact (Writer.append_extends bits f).trans (ih _)

/-! ## The bytes of the finished stream (R38) -/

/-- Bits read on behind a number already read shift it to their left. -/
theorem Writer.foldl_number (bits : List Bool) (acc : Nat) :
    bits.foldl (fun acc b => 2 * acc + b.toNat) acc = 2 ^ bits.length * acc + Writer.number bits := by
  induction bits generalizing acc with
  | nil => simp [Writer.number]
  | cons b bits ih =>
    rw [Writer.number, List.foldl_cons, List.foldl_cons, ih, ih (2 * 0 + _), List.length_cons, Nat.pow_succ]
    ring

/-- The first bit has the weight of all the places after it (R32). -/
theorem Writer.number_cons (b : Bool) (bits : List Bool) :
    Writer.number (b :: bits) = 2 ^ bits.length * b.toNat + Writer.number bits := by
  rw [Writer.number, List.foldl_cons, Writer.foldl_number, Nat.mul_zero, Nat.zero_add]

theorem Writer.number_lt (bits : List Bool) : Writer.number bits < 2 ^ bits.length := by
  induction bits with
  | nil => simp [Writer.number]
  | cons b bits ih =>
    have hb : 2 ^ bits.length * b.toNat ≤ 2 ^ bits.length * 1 := Nat.mul_le_mul_left _ (Bool.toNat_le b)
    rw [Writer.number_cons, List.length_cons, Nat.pow_succ]
    omega

/-- The number of some bits has those bits as its digits, most significant first. -/
theorem Writer.testBit_number {bits : List Bool} {i : Nat} (hi : i < bits.length) :
    (Writer.number bits).testBit (bits.length - 1 - i) = bits.getD i false := by
  induction bits generalizing i with
  | nil => cases hi
  | cons b bits ih =>
    rw [Writer.number_cons, Nat.testBit_two_pow_mul_add _ (Writer.number_lt bits)]
    cases i with
    | zero => cases b <;> simp
    | succ i =>
      have hi : i < bits.length := Nat.lt_of_succ_lt_succ hi
      rw [List.length_cons, if_pos (by omega), show bits.length + 1 - 1 - (i + 1) = bits.length - 1 - i by omega,
        ih hi, List.getD_cons_succ]

/-- Eight bits in front are one byte in front. -/
theorem Writer.pack_append {group : List Bool} (hgroup : group.length = 8) (rest : List Bool) :
    Writer.pack (group ++ rest) = BitVec.ofNat 8 (Writer.number group) :: Writer.pack rest := by
  match group, hgroup with
  | [_, _, _, _, _, _, _, _], _ => rfl

/-- Induction over a whole number of bytes, eight bits at a time. -/
theorem Writer.bytes_induction {motive : (bits : List Bool) → bits.length % 8 = 0 → Prop} (nil : motive [] rfl)
    (append : ∀ group rest (_ : group.length = 8) hrest h, motive rest hrest → motive (group ++ rest) h)
    (bits : List Bool) (hbytes : bits.length % 8 = 0) : motive bits hbytes := by
  obtain ⟨k, hk⟩ := Nat.dvd_of_mod_eq_zero hbytes
  induction k generalizing bits with
  | zero =>
    obtain rfl := List.eq_nil_of_length_eq_zero hk
    exact nil
  | succ k ih =>
    obtain ⟨group, rest, rfl, hgroup⟩ : ∃ group rest, bits = group ++ rest ∧ group.length = 8 :=
      ⟨bits.take 8, bits.drop 8, (List.take_append_drop 8 bits).symm, by rw [List.length_take]; omega⟩
    rw [List.length_append, hgroup] at hk
    exact append group rest hgroup (by omega) hbytes (ih rest _ (by omega))

theorem Writer.length_pack {bits : List Bool} (hbytes : bits.length % 8 = 0) :
    8 * (Writer.pack bits).length = bits.length := by
  induction bits, hbytes using Writer.bytes_induction with
  | nil => rfl
  | append group rest hgroup hrest h ih =>
    rw [Writer.pack_append hgroup, List.length_cons, List.length_append, hgroup, ← ih]
    omega

/-- In packed bytes, a bit stands where R31 looks for it. -/
theorem Writer.testBit_pack {bits : List Bool} (hbytes : bits.length % 8 = 0) (p : Nat) :
    ((Writer.pack bits).getD (p / 8) unlistedByte).toNat.testBit (7 - p % 8) = bits.getD p false := by
  induction bits, hbytes using Writer.bytes_induction generalizing p with
  | nil => simp [Writer.pack, unlistedByte]
  | append group rest hgroup hrest h ih =>
    rw [Writer.pack_append hgroup]
    rcases Nat.lt_or_ge p 8 with hp | hp
    · have hfits : Writer.number group < 2 ^ 8 := hgroup ▸ Writer.number_lt group
      rw [Nat.div_eq_of_lt hp, List.getD_cons_zero, BitVec.toNat_ofNat, Nat.mod_eq_of_lt hfits, Nat.mod_eq_of_lt hp,
        List.getD_append _ _ _ _ (hgroup ▸ hp), ← Writer.testBit_number (hgroup ▸ hp), hgroup]
    · obtain ⟨q, rfl⟩ := Nat.exists_eq_add_of_le' hp
      rw [Nat.add_div_right q (by omega), List.getD_cons_succ, Nat.add_mod_right, ih,
        List.getD_append_right _ _ _ _ (hgroup ▸ hp), hgroup, Nat.add_sub_cancel]

theorem Writer.pad_bytes (bits : List Bool) : (Writer.pad bits).length % 8 = 0 := by
  rw [Writer.length_pad]
  exact (alignSkip_spec _).2

/-- The finished stream is the written bits and the padding. -/
theorem Writer.length_finish (fields : List WriterField) :
    8 * (Writer.finish fields).length = (Writer.written fields).length + alignSkip (Writer.written fields).length := by
  rw [Writer.finish, Writer.length_pack (Writer.pad_bytes _), Writer.length_pad]

/-! ## The finished stream in the block -/

/-- The stream begins with the given bits. -/
structure State.StartsWith (s : State) (bits : List Bool) : Prop where
  within : bits.length ≤ s.bitLen
  bit : ∀ p, p < bits.length → s.streamBit p = (bits.getD p false).toNat

theorem State.StartsWith.mono {s : State} {xs ys : List Bool} (h : s.StartsWith ys) (hxy : xs <+: ys) :
    s.StartsWith xs := by
  obtain ⟨zs, rfl⟩ := hxy
  have hlen : (xs ++ zs).length = xs.length + zs.length := List.length_append
  refine ⟨Nat.le_trans (by omega) h.within, fun p hp => ?_⟩
  rw [h.bit p (by omega), List.getD_append _ _ _ _ hp]

/-- What stands behind some first bits, bit by bit. -/
theorem State.StartsWith.bit_append {s : State} {xs ys : List Bool} (h : s.StartsWith (xs ++ ys)) {i : Nat}
    (hi : i < ys.length) : s.streamBit (xs.length + i) = (ys.getD i false).toNat := by
  rw [h.bit _ (by rw [List.length_append]; omega), List.getD_append_right _ _ _ _ (by omega),
    Nat.add_sub_cancel_left]

theorem State.StartsWith.of_answer {s : State} {bits : List Bool} (h : s.StartsWith bits) (p : Word)
    (r : CmdResponse) : (s.answer p r).StartsWith bits := ⟨h.within, h.bit⟩

/-- A field written behind some bits is read there as its low n bits (R36). -/
theorem State.StartsWith.bitsFrom_fieldBits {s : State} {bits : List Bool} {n v : Nat}
    (h : s.StartsWith (bits ++ Writer.fieldBits n v)) : s.bitsFrom bits.length n = v % 2 ^ n :=
  State.bitsFrom_eq_mod fun i hi => by
    rw [h.bit_append (by simpa using hi), Writer.getD_fieldBits v hi]

/-- A block written at a byte boundary stands in the buffer byte by byte (R37). -/
theorem State.StartsWith.read_blockBits {s : State} {bits : List Bool} {data : List Byte}
    (h : s.StartsWith (bits ++ Writer.blockBits data)) (hbytes : bits.length % 8 = 0) {i : Nat}
    (hi : i < data.length) : s.buf.read (bits.length / 8 + i) = data.getD i 0 := by
  have hbits : s.bitsFrom (8 * (bits.length / 8 + i)) 8 = (data.getD i 0).toNat % 2 ^ 8 :=
    State.bitsFrom_eq_mod fun j hj => by
      rw [show 8 * (bits.length / 8 + i) + j = bits.length + (8 * i + j) by omega,
        h.bit_append (by rw [Writer.length_blockBits]; omega), Writer.getD_blockBits hi hj]
  apply BitVec.eq_of_toNat_eq
  rw [← State.bitsFrom_byte, hbits, Nat.mod_eq_of_lt (data.getD i 0).isLt]

/-- A finished stream that LOAD accepts becomes the stream, from bit 0 on (R74). -/
structure LoadedFinished (fields : List WriterField) (t : State) : Prop where
  inv : Inv t
  running : t.statusCode = 0
  start : t.pos.toNat = 0
  bitLen : t.bitLen = (Writer.written fields).length + alignSkip (Writer.written fields).length
  bit : ∀ p, t.streamBit p = ((Writer.written fields).getD p false).toNat

theorem LoadedFinished.of_exec {fields : List WriterField} {s t : State}
    (fits : (Writer.finish fields).length ≤ s.cfg.maxLenBytes.val)
    (h : exec (.load (Writer.finish fields)) s = .next t) : LoadedFinished fields t := by
  rcases execLoad_next h with ⟨hlt, -⟩ | ⟨-, rfl⟩
  · omega
  have hlen : (BitVec.ofNat 32 (Writer.finish fields).length).toNat = (Writer.finish fields).length := by
    have := s.cfg.bits_lt
    rw [BitVec.toNat_ofNat]
    exact Nat.mod_eq_of_lt (by omega)
  refine ⟨(Inv.install fits (.inl rfl)).respondHost 0, rfl, rfl, ?_, fun p => ?_⟩
  · rw [← Writer.length_finish, State.bitLen, State.respondHost_len, State.install_len, hlen]
  · rw [State.streamBit_eq_testBit, State.respondHost_buf, State.install_buf, Memory.read_ofBytes, Writer.finish,
      Writer.testBit_pack (Writer.pad_bytes _), Writer.getD_pad]

/-- Settles O51: the padding is less than a byte. -/
theorem finishedStreamHoldsTheWrittenBits : Obligations.FinishedStreamHoldsTheWrittenBits := by
  intro fields s t fits h
  have hload := LoadedFinished.of_exec fits h
  have hlen := hload.bitLen
  obtain ⟨hskip, -⟩ := alignSkip_spec (Writer.written fields).length
  exact ⟨by omega, by omega, fun p _ => hload.bit p⟩

theorem LoadedFinished.startsWith {fields : List WriterField} {t : State} (h : LoadedFinished fields t) :
    t.StartsWith (Writer.written fields) :=
  ⟨h.bitLen ▸ Nat.le_add_right .., fun p _ => h.bit p⟩

/-! ## The round trip (R39) -/

/-- Behind the bits written before it, a field's command answers the field and moves POS past it. -/
theorem exec_reads_field_back {f : WriterField} {bits : List Bool} {s : State} (hs : s.statusCode = 0)
    (hpos : s.pos.toNat = bits.length) (hf : f.legal = true) (h : s.StartsWith (Writer.append bits f)) :
    exec f.command s = .next (s.answer (BitVec.ofNat 32 (Writer.append bits f).length) f.expected) := by
  have hwithin := h.within
  cases f with
  | bits n v =>
    have hlen : (Writer.append bits (.bits n v)).length = s.pos.toNat + n.toNat := by
      simp [Writer.append, hpos]
    have hread := exec_read_of_le hs (of_decide_eq_true hf) (hlen ▸ hwithin)
    rw [hpos, h.bitsFrom_fieldBits, ← hpos, ← hlen] at hread
    exact hread
  | block data =>
    have hcount : (BitVec.ofNat 28 data.length).toNat = data.length := by
      rw [BitVec.toNat_ofNat]
      exact Nat.mod_eq_of_lt (of_decide_eq_true hf)
    have hpad : (Writer.pad bits).length = s.pos.toNat + alignSkip s.pos.toNat := by rw [Writer.length_pad, hpos]
    have hlen : (Writer.append bits (.block data)).length = s.readbEnd data.length := by
      show (Writer.pad bits ++ Writer.blockBits data).length = _
      rw [List.length_append, hpad, Writer.length_blockBits]
      rfl
    have hbytes : (List.range data.length).map
        (fun i => s.buf.read ((s.pos.toNat + alignSkip s.pos.toNat) / 8 + i)) = data := by
      refine List.ext_getElem (by simp) fun i hi hi' => ?_
      rw [List.getElem_map, List.getElem_range, ← hpad,
        State.StartsWith.read_blockBits h (Writer.pad_bytes bits) hi', List.getD_eq_getElem _ _ hi']
    have hread := exec_readb_of_le (k := BitVec.ofNat 28 data.length) hs (by rw [hcount, ← hlen]; exact hwithin)
    rw [hcount, hbytes, ← hlen] at hread
    exact hread

/-- The commands of a sequence of fields answer those fields, one after the other, wherever the writing began. -/
theorem issue_reads_fields_back (fields : List WriterField) {bits : List Bool} {s : State} (hi : Inv s)
    (hs : s.statusCode = 0) (hpos : s.pos.toNat = bits.length) (hf : ∀ f ∈ fields, f.legal = true)
    (h : s.StartsWith (fields.foldl Writer.append bits)) :
    ∃ u, issue (fields.map WriterField.command) s = some (fields.map fun f => .command f.expected, u) ∧
      u.pos.toNat = (fields.foldl Writer.append bits).length ∧ u.len = s.len := by
  induction fields generalizing bits s with
  | nil => exact ⟨s, rfl, hpos, rfl⟩
  | cons f fields ih =>
    obtain ⟨hlegal, hrest⟩ := List.forall_mem_cons.mp hf
    have hstart : s.StartsWith (Writer.append bits f) := h.mono (Writer.foldl_append_extends fields _)
    have hexec := exec_reads_field_back hs hpos hlegal hstart
    have hcommand : f.command.isCommand = true := by cases f <;> rfl
    have hstatus : f.expected.status = 0 := by cases f <;> rfl
    obtain ⟨u, hu, hend, hlen⟩ := ih (hi.of_exec_command hcommand hexec) hstatus
      (hi.toNat_ofNat_pos hstart.within) hrest (h.of_answer _ _)
    exact ⟨u, issue_cons hexec rfl hu, hend, hlen⟩

/-- Settles O52: the finished stream begins with the written bits, and what is left of it is the padding. -/
theorem writerRoundTrip : Obligations.WriterRoundTrip := by
  intro fields s t hf fits h
  have hload := LoadedFinished.of_exec fits h
  obtain ⟨u, hu, hpos, hlen⟩ :=
    issue_reads_fields_back fields (bits := []) hload.inv hload.running hload.start hf hload.startsWith
  have hpos : u.pos.toNat = (Writer.written fields).length := hpos
  have hbits : 8 * u.len.toNat = u.pos.toNat + alignSkip (Writer.written fields).length := by
    rw [hlen, hpos]
    exact hload.bitLen
  obtain ⟨hskip, -⟩ := alignSkip_spec (Writer.written fields).length
  exact ⟨u, hu, hpos, hbits, by omega⟩

end Sys2Proof.Machine
end

section
/-! PROOFS. 30_encoding.md sections 1 to 4: the decoders of both ports (R57 to R61) against the encoder, and the step
of a word that is an instruction, illegal or reserved. -/

namespace Sys2Proof.Machine

/-! ## The fields of a word and the words of the formats as numbers (R52 to R56) -/

@[simp] theorem toNat_zeroFieldN (w : Word) : (zeroFieldN w).toNat = w.toNat / 2 ^ 6 % 2 ^ 22 := by
  simp [zeroFieldN, Nat.shiftRight_eq_div_pow]

@[simp] theorem toNat_countField (w : Word) : (countField w).toNat = w.toNat % 2 ^ 6 := by
  simp [countField]

@[simp] theorem toNat_lowField (w : Word) : (lowField w).toNat = w.toNat % 2 ^ 28 := by
  simp [lowField]

@[simp] theorem toNat_zeroFieldH (w : Word) : (zeroFieldH w).toNat = w.toNat / 2 ^ 4 % 2 ^ 24 := by
  simp [zeroFieldH, Nat.shiftRight_eq_div_pow]

@[simp] theorem toNat_regField (w : Word) : (regField w).toNat = w.toNat % 2 ^ 4 := by
  simp [regField]

/-- The opcode is the top of the word: nothing stands above it. -/
@[simp] theorem toNat_opField (w : Word) : (opField w).toNat = w.toNat / 2 ^ 28 := by
  have hw := w.isLt
  simp only [opField, BitVec.extractLsb'_toNat, Nat.shiftRight_eq_div_pow]
  omega

/-- A zero-extended operand or'ed below a base is added to it. -/
theorem toNat_or_operand {k : Nat} (base : Word) (x : BitVec k) (hk : k ≤ 32) (hb : base.toNat % 2 ^ k = 0) :
    (base ||| x.setWidth 32).toNat = base.toNat + x.toNat := by
  have hbase : 2 ^ k * (base.toNat / 2 ^ k) = base.toNat := Nat.mul_div_cancel' (Nat.dvd_of_mod_eq_zero hb)
  rw [BitVec.toNat_or, BitVec.toNat_setWidth_of_le hk, ← hbase, Nat.two_pow_add_eq_or_of_lt x.isLt]

@[simp] theorem toNat_encodeWord_read (n : BitVec 6) : (encodeWord (.read n)).toNat = 0x10000000 + n.toNat :=
  toNat_or_operand 0x10000000#32 n (by decide) (by decide)

@[simp] theorem toNat_encodeWord_peek (n : BitVec 6) : (encodeWord (.peek n)).toNat = 0x20000000 + n.toNat :=
  toNat_or_operand 0x20000000#32 n (by decide) (by decide)

@[simp] theorem toNat_encodeWord_exhausted : (encodeWord .exhausted).toNat = 0x30000000 := rfl

@[simp] theorem toNat_encodeWord_readb (k : BitVec 28) : (encodeWord (.readb k)).toNat = 0x40000000 + k.toNat :=
  toNat_or_operand 0x40000000#32 k (by decide) (by decide)

@[simp] theorem toNat_encodeWord_reset : (encodeWord .reset).toNat = 0 := rfl

@[simp] theorem toNat_encodeWord_load (data : List Byte) : (encodeWord (.load data)).toNat = 0x10000000 := rfl

@[simp] theorem toNat_encodeWord_readReg (r : BitVec 4) : (encodeWord (.readReg r)).toNat = 0x20000000 + r.toNat :=
  toNat_or_operand 0x20000000#32 r (by decide) (by decide)

/-- A mask of the bits from `k` up keeps the multiple of `2 ^ k` below a word. -/
theorem and_highMask_eq_iff (k : Nat) (w base : Word) :
    w &&& (BitVec.allOnes 32 <<< k) = base ↔ w.toNat / 2 ^ k * 2 ^ k = base.toNat := by
  have hlt : w.toNat / 2 ^ k * 2 ^ k < 2 ^ 32 := Nat.lt_of_le_of_lt (Nat.div_mul_le_self ..) w.isLt
  rw [← BitVec.shiftLeft_ushiftRight, ← BitVec.toNat_inj, BitVec.toNat_shiftLeft, BitVec.toNat_ushiftRight,
    Nat.shiftRight_eq_div_pow, Nat.shiftLeft_eq, Nat.mod_eq_of_lt hlt]

/-- The mask of READ and PEEK (R57). -/
theorem and_countMask_eq_iff (w base : Word) :
    w &&& 0xFFFFFFC0#32 = base ↔ w.toNat / 2 ^ 6 * 2 ^ 6 = base.toNat :=
  and_highMask_eq_iff 6 w base

/-- The mask of READB (R57). -/
theorem and_opcodeMask_eq_iff (w base : Word) :
    w &&& 0xF0000000#32 = base ↔ w.toNat / 2 ^ 28 * 2 ^ 28 = base.toNat :=
  and_highMask_eq_iff 28 w base

/-! ## The decoders on the number a word writes -/

/-- R59 in the arithmetic that R60 is listed in. -/
theorem decode_command_eq (w : Word) : decode (.command w) =
    if w.toNat / 2 ^ 28 = 1 ∧ w.toNat / 2 ^ 6 % 2 ^ 22 = 0 ∧ w.toNat % 2 ^ 6 ≤ 32 then .ok (.read (countField w))
    else if w.toNat / 2 ^ 28 = 2 ∧ w.toNat / 2 ^ 6 % 2 ^ 22 = 0 ∧ w.toNat % 2 ^ 6 ≤ 32 then
      .ok (.peek (countField w))
    else if w.toNat / 2 ^ 28 = 3 ∧ w.toNat % 2 ^ 28 = 0 then .ok .exhausted
    else if w.toNat / 2 ^ 28 = 4 then .ok (.readb (lowField w))
    else .error .illegalCommand := by
  simp only [decode, decodeCommand, ← BitVec.toNat_inj, toNat_opField, toNat_zeroFieldN, toNat_countField,
    toNat_lowField]
  rfl

/-- R58 in the arithmetic that R61 is listed in. -/
theorem decode_host_eq (w : Word) (payload : List Byte) : decode (.host w payload) =
    if w.toNat / 2 ^ 28 = 0 ∧ w.toNat / 2 ^ 4 % 2 ^ 24 = 0 ∧ w.toNat % 2 ^ 4 = 0 then .ok .reset
    else if w.toNat / 2 ^ 28 = 1 ∧ w.toNat / 2 ^ 4 % 2 ^ 24 = 0 ∧ w.toNat % 2 ^ 4 = 0 then .ok (.load payload)
    else if w.toNat / 2 ^ 28 = 2 ∧ w.toNat / 2 ^ 4 % 2 ^ 24 = 0 then .ok (.readReg (regField w))
    else .error .reservedHostWord := by
  simp only [decode, decodeHost, ← BitVec.toNat_inj, toNat_opField, toNat_zeroFieldH, toNat_regField]
  rfl

/-! ## Decode of encode -/

theorem wf_read_iff {n : BitVec 6} : (Instr.read n).wf = true ↔ n.toNat ≤ 32 := decide_eq_true_iff

theorem wf_peek_iff {n : BitVec 6} : (Instr.peek n).wf = true ↔ n.toNat ≤ 32 := decide_eq_true_iff

/-- A command's word decodes to it, on the port that may issue it (R57, R59). -/
theorem decode_command_encodeWord {i : Instr} (hc : i.isCommand = true) (hwf : i.wf = true) :
    decode (.command (encodeWord i)) = .ok i := by
  rw [decode_command_eq]
  cases i with
  | read n =>
    have hn := wf_read_iff.mp hwf
    have hfield : countField (encodeWord (.read n)) = n := BitVec.eq_of_toNat_eq (by simp; omega)
    rw [hfield, toNat_encodeWord_read, if_pos (by omega)]
  | peek n =>
    have hn := wf_peek_iff.mp hwf
    have hfield : countField (encodeWord (.peek n)) = n := BitVec.eq_of_toNat_eq (by simp; omega)
    rw [hfield, toNat_encodeWord_peek, if_neg (by omega), if_pos (by omega)]
  | exhausted => rfl
  | readb k =>
    have hk := k.isLt
    have hfield : lowField (encodeWord (.readb k)) = k := BitVec.eq_of_toNat_eq (by simp; omega)
    rw [hfield, toNat_encodeWord_readb, if_neg (by omega), if_neg (by omega), if_neg (by omega),
      if_pos (by omega)]
  | reset => cases hc
  | load data => cases hc
  | readReg r => cases hc

/-- A host operation's word decodes to it beside its payload, and beside any payload when it is no LOAD (R58,
assumption log 9). -/
theorem decode_host_encodeWord {i : Instr} {payload : List Byte} (hc : i.isCommand = false)
    (hp : ∀ d, i = .load d → d = payload) : decode (.host (encodeWord i) payload) = .ok i := by
  rw [decode_host_eq]
  rcases hostOperation_of_not_isCommand hc with rfl | ⟨data, rfl⟩ | ⟨r, rfl⟩
  · rfl
  · obtain rfl := hp data rfl
    rw [toNat_encodeWord_load, if_neg (by omega), if_pos (by omega)]
  · have hr := r.isLt
    have hfield : regField (encodeWord (.readReg r)) = r := BitVec.eq_of_toNat_eq (by simp; omega)
    rw [hfield, toNat_encodeWord_readReg, if_neg (by omega), if_neg (by omega), if_pos (by omega)]

/-- Settles O1: each port decodes the words of its own instructions, and `encode` chooses the port. -/
theorem decodeEncodeRoundTrip : Obligations.DecodeEncodeRoundTrip := by
  intro i hwf
  unfold encode
  split
  · exact decode_command_encodeWord ‹_› hwf
  · refine decode_host_encodeWord (by simpa using ‹¬ i.isCommand = true›) ?_
    rintro d rfl
    rfl

/-! ## Encode of decode -/

/-- A command word that decodes is the word of a well-formed instruction (R59). -/
theorem encodeWord_of_decode_command {w : Word} {i : Instr} (h : decode (.command w) = .ok i) :
    i.wf = true ∧ encodeWord i = w := by
  rw [decode_command_eq] at h
  split_ifs at h with hread hpeek hexhausted hreadb
  · cases h
    exact ⟨wf_read_iff.mpr (by simp; omega), BitVec.eq_of_toNat_eq (by simp; omega)⟩
  · cases h
    exact ⟨wf_peek_iff.mpr (by simp; omega), BitVec.eq_of_toNat_eq (by simp; omega)⟩
  · cases h
    exact ⟨rfl, BitVec.eq_of_toNat_eq (by simp; omega)⟩
  · cases h
    exact ⟨rfl, BitVec.eq_of_toNat_eq (by simp; omega)⟩

/-- A host word that decodes is the word of a host operation, and the payload is a LOAD's data (R58). -/
theorem encodeWord_of_decode_host {w : Word} {payload : List Byte} {i : Instr}
    (h : decode (.host w payload) = .ok i) : i.wf = true ∧ encodeWord i = w ∧ ∀ d, i = .load d → d = payload := by
  rw [decode_host_eq] at h
  split_ifs at h with hreset hload hreadReg
  · cases h
    exact ⟨rfl, BitVec.eq_of_toNat_eq (by simp; omega), by rintro d ⟨⟩⟩
  · cases h
    exact ⟨rfl, BitVec.eq_of_toNat_eq (by simp; omega), by rintro d ⟨⟩; rfl⟩
  · cases h
    exact ⟨rfl, BitVec.eq_of_toNat_eq (by simp; omega), by rintro d ⟨⟩⟩

/-- On the command port decoding is the inverse of encoding (R59). -/
theorem decode_command_eq_ok_iff {w : Word} {i : Instr} :
    decode (.command w) = .ok i ↔ i.isCommand = true ∧ i.wf = true ∧ encodeWord i = w := by
  constructor
  · exact fun h => ⟨isCommand_of_decode_command h, encodeWord_of_decode_command h⟩
  · rintro ⟨hc, hwf, rfl⟩
    exact decode_command_encodeWord hc hwf

/-- On the host port too, but for a payload that is dropped (R58, assumption log 9). -/
theorem decode_host_eq_ok_iff {w : Word} {payload : List Byte} {i : Instr} :
    decode (.host w payload) = .ok i ↔
      i.isCommand = false ∧ encodeWord i = w ∧ ∀ d, i = .load d → d = payload := by
  constructor
  · exact fun h => ⟨isCommand_of_decode_host h, (encodeWord_of_decode_host h).2⟩
  · rintro ⟨hc, rfl, hp⟩
    exact decode_host_encodeWord hc hp

theorem encode_of_isCommand {i : Instr} (hc : i.isCommand = true) : encode i = .command (encodeWord i) :=
  if_pos hc

theorem encode_of_not_isCommand {i : Instr} (hc : i.isCommand = false) :
    encode i = .host (encodeWord i) (encodePayload i) := by
  simp [encode, hc]

/-- Settles O2. A LOAD encodes with its payload; RESET and READ_REG encode with none, so theirs was dropped. -/
theorem encodeDecodeRoundTrip : Obligations.EncodeDecodeRoundTrip := by
  constructor
  · intro w i h
    obtain ⟨hwf, rfl⟩ := encodeWord_of_decode_command h
    exact ⟨hwf, encode_of_isCommand (isCommand_of_decode_command h)⟩
  · intro w payload i h
    have hc := isCommand_of_decode_host h
    obtain ⟨hwf, rfl, hp⟩ := encodeWord_of_decode_host h
    refine ⟨hwf, ?_⟩
    rw [encode_of_not_isCommand hc]
    rcases hostOperation_of_not_isCommand hc with rfl | ⟨data, rfl⟩ | ⟨r, rfl⟩
    · exact .inr ⟨rfl, by rintro d ⟨⟩⟩
    · obtain rfl := hp data rfl
      exact .inl rfl
    · exact .inr ⟨rfl, by rintro d ⟨⟩⟩

/-! ## The words that are no instruction (R60, R61) -/

/-- Settles O5: R60's list is what the conditions of R59 leave over. -/
theorem illegalWordsAreTheListedOnes : Obligations.IllegalWordsAreTheListedOnes := by
  intro w
  have hw := w.isLt
  rw [decode_command_eq]
  unfold IllegalWord
  split_ifs with hread hpeek hexhausted hreadb
  · exact iff_of_false (by simp) (by omega)
  · exact iff_of_false (by simp) (by omega)
  · exact iff_of_false (by simp) (by omega)
  · exact iff_of_false (by simp) (by omega)
  · exact iff_of_true rfl (by omega)

/-- R61's list is what the rows of R58 leave over. -/
theorem decode_host_eq_error_iff (w : Word) (payload : List Byte) :
    decode (.host w payload) = .error .reservedHostWord ↔ ReservedHostWord w := by
  rw [decode_host_eq]
  unfold ReservedHostWord
  split_ifs with hreset hload hreadReg
  · exact iff_of_false (by simp) (by omega)
  · exact iff_of_false (by simp) (by omega)
  · exact iff_of_false (by simp) (by omega)
  · exact iff_of_true rfl (by omega)

/-! ## The tables of both ports -/

theorem decode_command_eq_read_iff {w : Word} {n : BitVec 6} :
    decode (.command w) = .ok (.read n) ↔ n.toNat ≤ 32 ∧ w.toNat = 0x10000000 + n.toNat := by
  rw [decode_command_eq_ok_iff, wf_read_iff, ← BitVec.toNat_inj, toNat_encodeWord_read, eq_comm (b := w.toNat)]
  exact and_iff_right rfl

theorem decode_command_eq_peek_iff {w : Word} {n : BitVec 6} :
    decode (.command w) = .ok (.peek n) ↔ n.toNat ≤ 32 ∧ w.toNat = 0x20000000 + n.toNat := by
  rw [decode_command_eq_ok_iff, wf_peek_iff, ← BitVec.toNat_inj, toNat_encodeWord_peek, eq_comm (b := w.toNat)]
  exact and_iff_right rfl

theorem decode_command_eq_exhausted_iff {w : Word} :
    decode (.command w) = .ok .exhausted ↔ w = 0x30000000#32 := by
  rw [decode_command_eq_ok_iff, eq_comm (b := w)]
  exact ⟨fun ⟨_, _, hw⟩ => hw, fun hw => ⟨rfl, rfl, hw⟩⟩

theorem decode_command_eq_readb_iff {w : Word} {k : BitVec 28} :
    decode (.command w) = .ok (.readb k) ↔ w.toNat = 0x40000000 + k.toNat := by
  rw [decode_command_eq_ok_iff, ← BitVec.toNat_inj, toNat_encodeWord_readb, eq_comm (b := w.toNat)]
  exact ⟨fun ⟨_, _, hw⟩ => hw, fun hw => ⟨rfl, rfl, hw⟩⟩

/-- Settles O3: the bits under a command's mask and its operand field determine the word, and are its match and the
operand exactly when the word is the command's; what no row takes is on R60's list. -/
theorem commandMapMatchesMasks : Obligations.CommandMapMatchesMasks := by
  intro w
  simp only [and_countMask_eq_iff, and_opcodeMask_eq_iff, BitVec.toNat_ofNat, ne_eq]
  refine ⟨fun n => ?_, fun n => ?_, decode_command_eq_exhausted_iff, fun k => ?_, ?_⟩
  · rw [decode_command_eq_read_iff]
    omega
  · rw [decode_command_eq_peek_iff]
    omega
  · rw [decode_command_eq_readb_iff]
    omega
  · have hw := w.isLt
    rw [illegalWordsAreTheListedOnes w, ← BitVec.toNat_inj]
    unfold IllegalWord
    simp only [BitVec.toNat_ofNat]
    omega

/-- Settles O4: a word decodes to a host operation exactly when it is the operation's word; what no row takes is on
R61's list. -/
theorem hostMapMatchesExactWords : Obligations.HostMapMatchesExactWords := by
  intro w payload
  refine ⟨?_, fun d => ?_, fun r => ?_, decode_host_eq_error_iff w payload⟩
  · rw [decode_host_eq_ok_iff, eq_comm (b := w)]
    exact ⟨fun ⟨_, hw, _⟩ => hw, fun hw => ⟨rfl, hw, by rintro d ⟨⟩⟩⟩
  · rw [decode_host_eq_ok_iff, eq_comm (b := w)]
    exact ⟨fun ⟨_, hw, hd⟩ => ⟨hw, hd d rfl⟩, fun ⟨hw, hd⟩ => ⟨rfl, hw, by rintro _ ⟨⟩; exact hd⟩⟩
  · rw [decode_host_eq_ok_iff, ← BitVec.toNat_inj, toNat_encodeWord_readReg, eq_comm (b := w.toNat)]
    exact ⟨fun ⟨_, hw, _⟩ => hw, fun hw => ⟨rfl, hw, by rintro d ⟨⟩⟩⟩

/-- Settles O7: one row each of the tables above, on a word written out. -/
theorem writtenOutWordsDecode : Obligations.WrittenOutWordsDecode :=
  ⟨decode_command_eq_read_iff.mpr (by decide), decode_command_eq_peek_iff.mpr (by decide),
    decode_command_eq_exhausted_iff.mpr rfl, decode_command_eq_readb_iff.mpr rfl,
    decode_host_encodeWord (i := .reset) rfl (by rintro d ⟨⟩),
    decode_host_encodeWord (i := .load [0xA5, 0x3C]) rfl (by rintro d ⟨⟩; rfl),
    decode_host_encodeWord (i := .readReg 1) rfl (by rintro d ⟨⟩),
    (illegalWordsAreTheListedOnes _).mpr (.inl rfl)⟩

/-! ## The step of a presented word -/

/-- What is presented is what the next step takes, and it leaves the state it was presented to. -/
theorem step_present_of_decode_ok {op : Operation} {i : Instr} (s : State) (hi : decode op = .ok i) :
    step (s.present op) = exec i s :=
  step_of_decode_ok (s.present_pending op) hi

/-- Settles O9: an encoding decodes to its instruction, so the step that takes it runs it. -/
theorem presentedInstructionRuns : Obligations.PresentedInstructionRuns :=
  fun i s hwf => step_present_of_decode_ok s (decodeEncodeRoundTrip i hwf)

/-- The instruction of a table word is that of the operation it stands for (assumption log 5). -/
theorem decode_of_decodeTableWord {nbits w : Nat} {i : Instr} (h : decodeTableWord nbits w = some i) :
    decode (tableOperation nbits w) = .ok i := by
  unfold decodeTableWord at h
  split at h
  · split at h
    · cases h
      assumption
    · cases h
  · cases h

/-- Settles O10: a table word is presented as the operation it was read as. -/
theorem tableWordRunsNext : Obligations.TableWordRunsNext :=
  fun s _ _ _ h => step_present_of_decode_ok s (decode_of_decodeTableWord h)

/-- A step whose operation is no instruction has the effect its port gives to such a word (R60, R61). -/
theorem step_of_decode_error {s : State} {op : Operation} {rest : List Operation} {e : DecodeError}
    (hp : s.pending = op :: rest) (he : decode op = .error e) :
    step s = execUndecoded e { s with pending := rest } := by
  unfold step
  rw [State.takeOperation_of_pending hp]
  simp only [he]

theorem execIllegalCommand_of_running {s : State} (hs : s.statusCode = 0) :
    execIllegalCommand s = .next (s.raise .illegalCommand) :=
  whenRunning_of_running hs

/-- Settles O14: the word is one the decoder refuses, and `State.raise` is the error entry (R81). -/
theorem illegalWordRaisesIllegalCommand : Obligations.IllegalWordRaisesIllegalCommand := by
  intro s w rest hw hp hs
  have hd : decode (.command w) = .error .illegalCommand := (illegalWordsAreTheListedOnes w).mpr hw
  have hstep : step s = .next ({ s with pending := rest }.raise .illegalCommand) :=
    (step_of_decode_error hp hd).trans (execIllegalCommand_of_running hs)
  exact ⟨_, hstep, rfl, rfl⟩

/-- Settles O15: the word is one the decoder refuses on the host port, and only the response is written. -/
theorem reservedHostWordIsIgnored : Obligations.ReservedHostWordIsIgnored :=
  fun _ w payload _ hw hp => step_of_decode_error hp ((decode_host_eq_error_iff w payload).mpr hw)

end Sys2Proof.Machine
end

section
/-! PROOFS. 30_encoding.md section 5: what a line of assembly text assembles to (R62, R63). -/

namespace Sys2Proof.Machine

/-! ## Operands -/

section operandUpTo
variable {limit v : Nat} {text : List Char} {build : Nat → Instr} {i : Instr}

theorem operandUpTo_of_le (hv : parseNumber text = some v) (hle : v ≤ limit) :
    operandUpTo limit text build = .ok (build v) := by
  simp only [operandUpTo, hv, if_pos hle]

theorem operandUpTo_of_lt (hv : parseNumber text = some v) (hlt : limit < v) :
    operandUpTo limit text build = .error .operandRange := by
  simp only [operandUpTo, hv, if_neg (Nat.not_le.mpr hlt)]

/-- An operand is accepted only within its limit. -/
theorem operandUpTo_eq_ok (h : operandUpTo limit text build = .ok i) : ∃ v, v ≤ limit ∧ i = build v := by
  unfold operandUpTo at h
  split at h
  · cases h
  · split at h
    · cases h
      exact ⟨_, ‹_›, rfl⟩
    · cases h

end operandUpTo

/-- A register written as a number is no register's name. -/
theorem assembleReadReg_of_parseNumber {text : List Char} {v : Nat} (hv : parseNumber text = some v) :
    assembleReadReg text = operandUpTo 15 text fun r => .readReg (BitVec.ofNat 4 r) := by
  unfold assembleReadReg
  rw [if_neg, if_neg, if_neg]
  · rintro rfl
    cases hv
  · rintro rfl
    cases hv
  · rintro rfl
    cases hv

theorem assembleReadBE_of_parseNumber {text : List Char} {k : Nat} (hk : parseNumber text = some k) (hlo : 1 ≤ k)
    (hhi : k ≤ 4) : assembleReadBE text = .ok (pseudoReadBE k) := by
  simp only [assembleReadBE, hk, if_pos (And.intro hlo hhi)]

/-- READ_BE is accepted only for a whole number of bytes of one word (R63). -/
theorem assembleReadBE_eq_ok {text : List Char} {i : Instr} (h : assembleReadBE text = .ok i) :
    ∃ k, k ≤ 4 ∧ i = pseudoReadBE k := by
  unfold assembleReadBE at h
  split at h
  · cases h
  · split at h
    · rename_i hk
      cases h
      exact ⟨_, hk.2, rfl⟩
    · cases h

/-! ## Well-formedness of each form of line -/

theorem wf_read_ofNat {v : Nat} (hv : v ≤ 32) : (Instr.read (BitVec.ofNat 6 v)).wf = true := by
  rw [wf_read_iff, BitVec.toNat_ofNat]
  omega

theorem wf_peek_ofNat {v : Nat} (hv : v ≤ 32) : (Instr.peek (BitVec.ofNat 6 v)).wf = true := by
  rw [wf_peek_iff, BitVec.toNat_ofNat]
  omega

theorem wf_of_assembleBare {m : List Char} {i : Instr} (h : assembleBare m = .ok i) : i.wf = true := by
  unfold assembleBare at h
  split_ifs at h <;> cases h <;> rfl

theorem wf_of_assembleReadReg {text : List Char} {i : Instr} (h : assembleReadReg text = .ok i) : i.wf = true := by
  unfold assembleReadReg at h
  split_ifs at h
  · cases h
    rfl
  · cases h
    rfl
  · cases h
    rfl
  · obtain ⟨_, -, rfl⟩ := operandUpTo_eq_ok h
    rfl

theorem wf_of_assembleUnary {m text : List Char} {i : Instr} (h : assembleUnary m text = .ok i) : i.wf = true := by
  unfold assembleUnary at h
  split_ifs at h with hread hpeek hskip hreadb hreadBE hreadReg
  · obtain ⟨v, hv, rfl⟩ := operandUpTo_eq_ok h
    exact wf_read_ofNat hv
  · obtain ⟨v, hv, rfl⟩ := operandUpTo_eq_ok h
    exact wf_peek_ofNat hv
  · obtain ⟨v, hv, rfl⟩ := operandUpTo_eq_ok h
    exact wf_read_ofNat hv
  · obtain ⟨v, -, rfl⟩ := operandUpTo_eq_ok h
    rfl
  · obtain ⟨k, hk, rfl⟩ := assembleReadBE_eq_ok h
    exact wf_read_ofNat (by omega)
  · exact wf_of_assembleReadReg h

theorem wf_of_assembleLoad {m : List Char} {operands : List (List Char)} {i : Instr}
    (h : assembleLoad m operands = .ok i) : i.wf = true := by
  unfold assembleLoad at h
  split at h
  · split at h
    · cases h
      rfl
    · cases h
  · cases h

/-! ## Lines -/

theorem assembleLine_of_unary {line m text : List Char} (ht : tokens line [] = [m, text]) :
    assembleLine line = (assembleUnary m text).map some := by
  simp only [assembleLine, ht]

/-- A wrapped instruction was there to wrap. -/
theorem eq_ok_of_map_some {e : Except AsmError Instr} {i : Instr} (h : e.map some = .ok (some i)) : e = .ok i := by
  cases e with
  | error => cases h
  | ok j =>
    cases h
    rfl

/-- A line that assembles to an instruction has one of three forms: a mnemonic alone, one with an operand, or LOAD
with its bytes (R62). -/
theorem assembleLine_eq_ok {line : List Char} {i : Instr} (h : assembleLine line = .ok (some i)) :
    (∃ m, assembleBare m = .ok i) ∨ (∃ m text, assembleUnary m text = .ok i) ∨
    ∃ m operands, assembleLoad m operands = .ok i := by
  unfold assembleLine at h
  split at h
  · cases h
  · exact .inl ⟨_, eq_ok_of_map_some h⟩
  · exact .inr (.inl ⟨_, _, eq_ok_of_map_some h⟩)
  · exact .inr (.inr ⟨_, _, eq_ok_of_map_some h⟩)

/-- A mnemonic whose operand is a number within the limit builds the instruction of that very number, since its field
holds the limit; above the limit the line is refused. -/
theorem assembleLine_of_operand {line m text : List Char} {k limit v : Nat} {build : BitVec k → Instr}
    (ht : tokens line [] = [m, text]) (hv : parseNumber text = some v) (hfits : limit < 2 ^ k)
    (hm : assembleUnary m text = operandUpTo limit text fun x => build (BitVec.ofNat k x)) :
    (v ≤ limit → ∃ x : BitVec k, x.toNat = v ∧ assembleLine line = .ok (some (build x))) ∧
    (v > limit → assembleLine line = .error .operandRange) := by
  rw [assembleLine_of_unary ht, hm]
  constructor
  · intro hle
    have hfield : (BitVec.ofNat k v).toNat = v := by
      rw [BitVec.toNat_ofNat, Nat.mod_eq_of_lt (Nat.lt_of_le_of_lt hle hfits)]
    rw [operandUpTo_of_le hv hle]
    exact ⟨_, hfield, rfl⟩
  · intro hlt
    rw [operandUpTo_of_lt hv hlt]
    rfl

/-- Settles O53: each form of line checks its operand against a limit that its field holds. -/
theorem assembledLinesAreWellFormed : Obligations.AssembledLinesAreWellFormed := by
  constructor
  · intro line i h
    rcases assembleLine_eq_ok h with ⟨m, hi⟩ | ⟨m, text, hi⟩ | ⟨m, operands, hi⟩
    · exact wf_of_assembleBare hi
    · exact wf_of_assembleUnary hi
    · exact wf_of_assembleLoad hi
  · intro line text v hv
    exact ⟨fun ht => assembleLine_of_operand ht hv (by decide) rfl,
      fun ht => assembleLine_of_operand ht hv (by decide) rfl,
      fun ht => assembleLine_of_operand ht hv (by decide) rfl,
      fun ht => assembleLine_of_operand ht hv (by decide) (assembleReadReg_of_parseNumber hv)⟩

/-- Settles O56: whatever follows the mnemonic, the form of line it stands in knows only mnemonics of the list. -/
theorem otherMnemonicsAreRefused : Obligations.OtherMnemonicsAreRefused := by
  intro line m rest ht hm
  simp only [List.mem_cons, List.not_mem_nil, or_false, not_or] at hm
  obtain ⟨hread, hpeek, hexhausted, hreadb, hreset, hload, hreadReg, halign, hskip, hreadBE⟩ := hm
  match rest with
  | [] =>
    have hbare : assembleBare m = .error .unknownLine := by
      simp only [assembleBare, if_neg hexhausted, if_neg hreset, if_neg halign]
    simp only [assembleLine, ht, hbare, Except.map]
  | [text] =>
    have hunary : assembleUnary m text = .error .unknownLine := by
      simp only [assembleUnary, if_neg hread, if_neg hpeek, if_neg hskip, if_neg hreadb, if_neg hreadBE,
        if_neg hreadReg]
    simp only [assembleLine, ht, hunary, Except.map]
  | a :: b :: operands =>
    have hbytes : assembleLoad m (a :: b :: operands) = .error .unknownLine := by
      simp only [assembleLoad, if_neg hload]
    simp only [assembleLine, ht, hbytes, Except.map]

/-- Settles O54: the expansions are those of the pseudo-instructions' definitions, their operands within range. -/
theorem pseudoInstructionsExpand : Obligations.PseudoInstructionsExpand :=
  ⟨rfl, rfl, fun _ _ hn hle => operandUpTo_of_le hn hle,
    fun _ _ hk hlo hhi => assembleReadBE_of_parseNumber hk hlo hhi⟩

end Sys2Proof.Machine
end

section
/-! PROOFS. 40_bit_reads.md: READ and PEEK by their rules (R64, R65), the bound of their values (R66), and what a PEEK
says of the READ after it (R67, R101). -/

namespace Sys2Proof.Machine

/-! ## The numbers that READ and PEEK return -/

/-- `Bits` written out as a sum of weighted stream bits (R32). -/
theorem State.bitsFrom_eq_sum (s : State) (p n : Nat) :
    s.bitsFrom p n = ∑ i ∈ Finset.range n, s.streamBit (p + i) * 2 ^ (n - 1 - i) := by
  induction n generalizing p with
  | zero => rfl
  | succ n ih =>
    have hrest : s.bitsFrom (p + 1) n =
        ∑ i ∈ Finset.range n, s.streamBit (p + (i + 1)) * 2 ^ (n + 1 - 1 - (i + 1)) := by
      rw [ih]
      refine Finset.sum_congr rfl fun i _ => ?_
      rw [Nat.succ_add_eq_add_succ, show n + 1 - 1 - (i + 1) = n - 1 - i by omega]
    rw [Finset.sum_range_succ', ← hrest, State.bitsFrom, Nat.add_comm]
    rfl

/-- The first `a` of `n` bits, left-aligned with zeros below, are a number below 2^n (R65, R66). -/
theorem State.bitsFrom_mul_lt (s : State) (p : Nat) {a n : Nat} (ha : a ≤ n) :
    s.bitsFrom p a * 2 ^ (n - a) < 2 ^ n := by
  calc s.bitsFrom p a * 2 ^ (n - a)
    _ < 2 ^ a * 2 ^ (n - a) := Nat.mul_lt_mul_of_pos_right (s.bitsFrom_lt p a) (Nat.two_pow_pos _)
    _ = 2 ^ n := pow_mul_pow_sub 2 ha

/-- A left-aligned number of at most 32 bits fits a value. -/
theorem State.toNat_ofNat_bitsFrom_mul (s : State) (p : Nat) {a n : Nat} (ha : a ≤ n) (hn : n ≤ 32) :
    (BitVec.ofNat 32 (s.bitsFrom p a * 2 ^ (n - a))).toNat = s.bitsFrom p a * 2 ^ (n - a) := by
  rw [BitVec.toNat_ofNat]
  exact Nat.mod_eq_of_lt (Nat.lt_of_lt_of_le (s.bitsFrom_mul_lt p ha) (Nat.pow_le_pow_right (by omega) hn))

/-- A value is no larger than the number it was cut from. -/
theorem toNat_value_lt {v b : Nat} (hv : v < b) : (BitVec.ofNat 32 v : Word).toNat < b := by
  rw [BitVec.toNat_ofNat]
  exact Nat.lt_of_le_of_lt (Nat.mod_le ..) hv

/-! ## What READ and PEEK do, in each case of their rules -/

/-- An answer with the code that stands changes POS and the response only. -/
theorem State.answer_of_code {s : State} {r : CmdResponse} (hc : s.statusCode = r.status) (p : Word) :
    s.answer p r = { s with pos := p, response := some (.command r) } := by
  unfold State.answer
  rw [← hc]

/-- The sticky check that opens every command (R82). -/
theorem exec_command_of_error {i : Instr} {s : State} (hc : i.isCommand = true) (hs : s.statusCode ≠ 0) :
    exec i s = .next { s with response := some (.command ⟨s.statusCode, 0, 0, []⟩) } := by
  cases i with
  | read n => exact whenRunning_of_error hs
  | peek n => exact whenRunning_of_error hs
  | exhausted => exact whenRunning_of_error hs
  | readb k => exact whenRunning_of_error hs
  | reset => cases hc
  | load data => cases hc
  | readReg r => cases hc

/-- A READ of more bits than remain raises TruncatedStream (R64). -/
theorem exec_read_of_lt {n : BitVec 6} {s : State} (hs : s.statusCode = 0) (hn : n.toNat ≤ 32)
    (hlt : s.remaining < n.toNat) : exec (.read n) s = .next (s.raise .truncatedStream) := by
  have hlegal : countLegal n = true := decide_eq_true hn
  have hwithin : decide (n.toNat ≤ s.remaining) = false := decide_eq_false (Nat.not_le.mpr hlt)
  show execRead n s = _
  unfold execRead countOperand
  rw [whenRunning_of_running hs, hlegal, hwithin]
  rfl

/-- As many bits as remain lie inside the stream (R13, R20). -/
theorem Inv.pos_add_le_bitLen {s : State} (hi : Inv s) {n : Nat} (hn : n ≤ s.remaining) :
    s.pos.toNat + n ≤ s.bitLen := by
  have hpos : s.pos.toNat ≤ s.bitLen := hi.posLegal
  unfold State.remaining at hn
  omega

/-- A PEEK in the running state completes, with `a` the number of bits available (R65). -/
theorem exec_peek_of_running {n a : BitVec 6} {s : State} (hi : Inv s) (hs : s.statusCode = 0) (hn : n.toNat ≤ 32)
    (ha : a.toNat = min n.toNat s.remaining) :
    exec (.peek n) s = .next (s.answer s.pos
      ⟨0, BitVec.ofNat 32 (s.bitsFrom s.pos.toNat a.toNat * 2 ^ (n.toNat - a.toNat)), a, []⟩) := by
  have hlegal : countLegal n = true := decide_eq_true hn
  have hle : s.pos.toNat + a.toNat ≤ s.bitLen := hi.pos_add_le_bitLen (by omega)
  show execPeek n s = _
  unfold execPeek countOperand
  rw [whenRunning_of_running hs, hlegal, ← ha, State.bits_of_le hle, BitVec.ofNat_toNat, BitVec.setWidth_eq,
    ← State.respond_eq_answer hs]
  rfl

/-- The number of bits available to a PEEK fits the field `avail` (R65). -/
theorem exists_avail (n : BitVec 6) (s : State) : ∃ a : BitVec 6, a.toNat = min n.toNat s.remaining := by
  refine ⟨BitVec.ofNat 6 (min n.toNat s.remaining), ?_⟩
  have hn := n.isLt
  rw [BitVec.toNat_ofNat]
  exact Nat.mod_eq_of_lt (by omega)

/-- A READ of the bits that a PEEK found available completes after it with those bits (R101). -/
theorem exec_read_after_peek {n a : BitVec 6} {s t : State} (hi : Inv s) (hs : s.statusCode = 0)
    (hn : n.toNat ≤ 32) (ha : a.toNat = min n.toNat s.remaining) (h : exec (.peek n) s = .next t) :
    ∃ u, exec (.read a) t = .next u ∧
      u.response = some (.command ⟨0, BitVec.ofNat 32 (s.bitsFrom s.pos.toNat a.toNat), 0, []⟩) := by
  rw [exec_peek_of_running hi hs hn ha] at h
  obtain rfl := Host.Outcome.next.inj h
  have hle : s.pos.toNat + a.toNat ≤ s.bitLen := hi.pos_add_le_bitLen (by omega)
  refine ⟨_, exec_read_of_le rfl (by omega) hle, ?_⟩
  rw [State.answer_response, State.answer_bitsFrom, State.answer_pos]

/-! ## READ and PEEK by their rules (R64, R65) -/

/-- Settles O21, a lemma for each line of R64's pseudocode. -/
theorem readFollowsItsRule : Obligations.ReadFollowsItsRule := by
  intro n s hn hi
  refine ⟨decode_command_encodeWord (i := .read n) rfl (wf_read_iff.mpr hn), exec_command_of_error rfl,
    fun hs hlt => exec_read_of_lt hs hn hlt, fun hs hle => ?_⟩
  have hin : s.pos.toNat + n.toNat ≤ s.bitLen := hi.pos_add_le_bitLen hle
  refine ⟨_, _, exec_read_of_le hs hn hin, State.answer_of_code hs _, hi.toNat_ofNat_pos hin, ?_⟩
  rw [State.toNat_ofNat_bitsFrom s _ hn, State.bitsFrom_eq_sum]

/-- Settles O22, a lemma for each line of R65's pseudocode. -/
theorem peekFollowsItsRule : Obligations.PeekFollowsItsRule := by
  intro n s hn hi
  refine ⟨decode_command_encodeWord (i := .peek n) rfl (wf_peek_iff.mpr hn), exec_command_of_error rfl, fun hs => ?_⟩
  obtain ⟨a, ha⟩ := exists_avail n s
  have hpeek := exec_peek_of_running hi hs hn ha
  rw [State.answer_of_code hs] at hpeek
  refine ⟨_, a, hpeek, ha, ?_⟩
  rw [State.toNat_ofNat_bitsFrom_mul s _ (by omega) hn, State.bitsFrom_eq_sum]

/-! ## The bound of the values (R66) -/

theorem execRead_value_lt {n : BitVec 6} {s t : State} (h : execRead n s = .next t) :
    ∃ r, t.response = some (.command r) ∧ r.value.toNat < 2 ^ n.toNat := by
  rcases execRead_next h with ⟨-, rfl⟩ | ⟨-, -, rfl⟩ | ⟨-, -, -, rfl⟩ | ⟨-, -, -, rfl⟩
  · exact ⟨_, rfl, Nat.two_pow_pos _⟩
  · exact ⟨_, rfl, Nat.two_pow_pos _⟩
  · exact ⟨_, rfl, Nat.two_pow_pos _⟩
  · exact ⟨_, rfl, toNat_value_lt (s.bitsFrom_lt _ _)⟩

theorem execPeek_value_lt {n : BitVec 6} {s t : State} (h : execPeek n s = .next t) :
    ∃ r, t.response = some (.command r) ∧ r.value.toNat < 2 ^ n.toNat := by
  rcases execPeek_next h with ⟨-, rfl⟩ | ⟨-, -, rfl⟩ | ⟨-, -, rfl⟩
  · exact ⟨_, rfl, Nat.two_pow_pos _⟩
  · exact ⟨_, rfl, Nat.two_pow_pos _⟩
  · exact ⟨_, rfl, toNat_value_lt (s.bitsFrom_mul_lt _ (Nat.min_le_left ..))⟩

/-- Settles O24: an error's value is 0, and every other value is a number of at most n bits. -/
theorem readValuesFitTheirCount : Obligations.ReadValuesFitTheirCount := by
  intro n s t r _ h hr
  have hbound : ∃ r', t.response = some (.command r') ∧ r'.value.toNat < 2 ^ n.toNat := by
    rcases h with h | h
    · exact execRead_value_lt h
    · exact execPeek_value_lt h
  obtain ⟨r', hr', hlt⟩ := hbound
  obtain rfl : r' = r := by simpa [hr'] using hr
  exact hlt

/-! ## A PEEK and the READ after it (R67, R101) -/

/-- Settles O27: with n bits remaining all n are available, and nothing is shifted. -/
theorem peekThenReadAgree : Obligations.PeekThenReadAgree := by
  intro n s hi hs hn hle
  have havail : n.toNat = min n.toNat s.remaining := (Nat.min_eq_left hle).symm
  have hpeek := exec_peek_of_running hi hs hn havail
  rw [Nat.sub_self, Nat.pow_zero, Nat.mul_one] at hpeek
  obtain ⟨u, hread, hu⟩ := exec_read_after_peek hi hs hn havail hpeek
  exact ⟨_, _, u, hpeek, State.answer_of_code hs s.pos, hread, hu⟩

/-- Settles O28: the READ returns the available bits, which the PEEK returned shifted up by n - avail. -/
theorem shortPeekHoldsTheReadableBits : Obligations.ShortPeekHoldsTheReadableBits := by
  intro n s hi hs hn
  obtain ⟨a, ha⟩ := exists_avail n s
  have hcount : a.toNat ≤ n.toNat := by omega
  have hpeek := exec_peek_of_running hi hs hn ha
  obtain ⟨u, hread, hu⟩ := exec_read_after_peek hi hs hn ha hpeek
  refine ⟨_, _, a, _, u, hpeek, rfl, hcount, hread, hu, ?_⟩
  rw [State.toNat_ofNat_bitsFrom_mul s _ hcount hn, State.toNat_ofNat_bitsFrom s _ (hcount.trans hn)]

end Sys2Proof.Machine
end

section
/-! PROOFS. 41_stream_query.md: EXHAUSTED by its rule (R68), and what its answer says of the command after it (R69). -/

namespace Sys2Proof.Machine

/-! ## What EXHAUSTED answers (R68) -/

theorem State.isExhausted_iff (s : State) : s.isExhausted = true ↔ s.pos.toNat = s.bitLen := beq_iff_eq

/-- EXHAUSTED in the running state, with nothing left of the stream. -/
theorem exec_exhausted_of_end {s : State} (hs : s.statusCode = 0) (hend : s.pos.toNat = s.bitLen) :
    exec .exhausted s = .next (s.respond 0 1 0 []) := by
  show execExhausted s = _
  unfold execExhausted
  rw [whenRunning_of_running hs, if_pos (s.isExhausted_iff.mpr hend)]

/-- EXHAUSTED in the running state, with bits left of the stream. -/
theorem exec_exhausted_of_not_end {s : State} (hs : s.statusCode = 0) (hend : s.pos.toNat ≠ s.bitLen) :
    exec .exhausted s = .next (s.respond 0 0 0 []) := by
  show execExhausted s = _
  unfold execExhausted
  rw [whenRunning_of_running hs, if_neg (mt s.isExhausted_iff.mp hend)]

/-- Settles O29, a lemma for each line of R68's pseudocode. -/
theorem exhaustedFollowsItsRule : Obligations.ExhaustedFollowsItsRule := fun _ =>
  ⟨decode_command_encodeWord (i := .exhausted) rfl rfl, exec_command_of_error rfl, exec_exhausted_of_end,
    exec_exhausted_of_not_end⟩

/-! ## The answer read back -/

/-- An answer of EXHAUSTED with status 0 leaves the block running, and its value is 1 exactly when POS is the end of
the stream, in the state it leaves. -/
theorem exhausted_answer_iff {s e : State} {v : Word} (h : exec .exhausted s = .next e)
    (hv : e.response = some (.command ⟨0, v, 0, []⟩)) : e.statusCode = 0 ∧ (v = 1 ↔ e.pos.toNat = e.bitLen) := by
  rcases execExhausted_next h with ⟨herror, rfl⟩ | ⟨hs, rfl⟩
  · obtain ⟨hstatus, -⟩ : s.statusCode = 0 ∧ 0 = v := by simpa using hv
    exact absurd hstatus herror
  · obtain rfl : (if s.isExhausted then 1 else 0) = v := by simpa using hv
    refine ⟨hs, ?_⟩
    rw [State.respond_pos, State.respond_bitLen, ← State.isExhausted_iff]
    simp

/-! ## Commands at the end of the stream (R69) -/

theorem State.remaining_of_end {s : State} (hend : s.pos.toNat = s.bitLen) : s.remaining = 0 :=
  Nat.sub_eq_zero_of_le hend.ge

/-- At the end of the stream a PEEK finds no bit available and answers with value 0 (R65). -/
theorem exec_peek_of_end {n : BitVec 6} {s : State} (hi : Inv s) (hs : s.statusCode = 0) (hn : n.toNat ≤ 32)
    (hend : s.pos.toNat = s.bitLen) : exec (.peek n) s = .next (s.answer s.pos ⟨0, 0, 0, []⟩) := by
  have hnone : (0 : BitVec 6).toNat = min n.toNat s.remaining := by
    rw [State.remaining_of_end hend, Nat.min_zero]
    rfl
  rw [exec_peek_of_running hi hs hn hnone]
  simp [State.bitsFrom]

/-- A whole byte ends behind POS, wherever the skip to its boundary leads (R70). -/
theorem State.pos_lt_readbEnd (s : State) {k : Nat} (hk : 1 ≤ k) : s.pos.toNat < s.readbEnd k := by
  unfold State.readbEnd
  omega

/-- READB 0 stays inside the stream (R71). -/
theorem Inv.readbEnd_zero_le {s : State} (hi : Inv s) : s.readbEnd 0 ≤ s.bitLen := alignSkip_le hi.posLegal

/-- With POS short of the end, a bit remains (R13, R20). -/
theorem Inv.pos_succ_le_bitLen {s : State} (hi : Inv s) (hend : s.pos.toNat ≠ s.bitLen) :
    s.pos.toNat + 1 ≤ s.bitLen :=
  Nat.lt_of_le_of_ne hi.posLegal hend

/-- Settles O30: the answer 1 says that no bit remains, the answer 0 that one does. -/
theorem exhaustedPredictsTheNextCommand : Obligations.ExhaustedPredictsTheNextCommand := by
  intro s e hi h
  have hie : Inv e := hi.of_exec_command rfl h
  refine ⟨fun hone => ?_, fun hzero => ?_⟩
  · obtain ⟨he, hvalue⟩ := exhausted_answer_iff h hone
    have hend : e.pos.toNat = e.bitLen := hvalue.mp rfl
    refine ⟨fun n hlo hn => ?read, ?readZero, fun n hn => ?peek, ?readbZero, fun k hk => ?readb⟩
    case read => exact ⟨_, exec_read_of_lt he hn (State.remaining_of_end hend ▸ hlo), rfl⟩
    case readZero => exact ⟨_, exec_read_of_le he (Nat.zero_le _) hend.le, rfl⟩
    case peek => exact ⟨_, exec_peek_of_end hie he hn hend, rfl⟩
    case readbZero => exact ⟨_, exec_readb_of_le he hie.readbEnd_zero_le, rfl⟩
    case readb => exact ⟨_, exec_readb_of_lt he (hend ▸ e.pos_lt_readbEnd hk), rfl⟩
  · obtain ⟨he, hvalue⟩ := exhausted_answer_iff h hzero
    have hend : e.pos.toNat ≠ e.bitLen := mt hvalue.mpr (by decide)
    exact ⟨_, exec_read_of_le (n := 1) he (by decide) (hie.pos_succ_le_bitLen hend), rfl⟩

end Sys2Proof.Machine
end

section
/-! PROOFS. 42_byte_block.md: READB by its rule (R70), and READB 0 as the alignment that never truncates (R71). -/

namespace Sys2Proof.Machine

/-! ## The end test and the bytes of a block -/

/-- READB's end passes the stream exactly when fewer than k whole bytes lie after the alignment skip (R70). The
invariant keeps the boundary inside the stream, so that the difference in R70's form does not stop at 0. -/
theorem Inv.bitLen_lt_readbEnd_iff {s : State} (hi : Inv s) (k : Nat) :
    s.bitLen < s.readbEnd k ↔ s.len.toNat - (s.pos.toNat + alignSkip s.pos.toNat) / 8 < k := by
  have hboundary : (s.pos.toNat + alignSkip s.pos.toNat) / 8 + 0 ≤ s.len.toNat :=
    (s.readbEnd_le_iff 0).mp hi.readbEnd_zero_le
  rw [← Nat.not_le, s.readbEnd_le_iff]
  omega

/-- The bytes `MemRead` answers with are those of the buffer, in order (R11). -/
theorem State.memRead_getElem? {s : State} {addr n i : Nat} {bs : List Byte} (h : s.memRead addr n = some bs)
    (hin : i < n) : bs[i]? = s.readByte (addr + i) := by
  obtain ⟨hle, rfl⟩ := State.memRead_eq_some h
  have hbyte : s.readByte (addr + i) = some (s.buf.read (addr + i)) := if_pos (by omega)
  simp [hin, hbyte]

/-! ## READB by its rule (R70, R71) -/

/-- Settles O31, a lemma for each line of R70's pseudocode. -/
theorem readbFollowsItsRule : Obligations.ReadbFollowsItsRule := by
  rintro k s _ hi rfl
  refine ⟨decode_command_encodeWord (i := .readb k) rfl rfl, exec_command_of_error rfl,
    hi.bitLen_lt_readbEnd_iff k.toNat, exec_readb_of_lt, fun hs hle => ?_⟩
  have hbytes := State.memRead_of_le ((s.readbEnd_le_iff k.toNat).mp hle)
  exact ⟨_, _, exec_readb_of_le hs hle, State.answer_of_code hs _, hi.toNat_ofNat_pos hle, by simp,
    fun _ hin => State.memRead_getElem? hbytes hin⟩

/-- Settles O32: READB 0 ends at the boundary that the skip leads to. -/
theorem alignNeverTruncates : Obligations.AlignNeverTruncates := by
  intro s hi hs
  have hle : s.readbEnd 0 ≤ s.bitLen := hi.readbEnd_zero_le
  have hend : (BitVec.ofNat 32 (s.readbEnd 0)).toNat = s.pos.toNat + alignSkip s.pos.toNat := hi.toNat_ofNat_pos hle
  have haligned : (BitVec.ofNat 32 (s.readbEnd 0)).toNat % 8 = 0 := by rw [hend, (alignSkip_spec _).2]
  exact ⟨_, exec_readb_of_le hs hle, rfl, hend, haligned, hend.trans_le hle⟩

end Sys2Proof.Machine
end

section
/-! PROOFS. 43_host_ops.md: RESET, LOAD and READ_REG by their rules (R73 to R75), and the two ways out of the error
state (R76, R83). -/

namespace Sys2Proof.Machine

/-! ## The stream that LOAD installs (R74) -/

section install
variable {s : State} {data : List Byte}

/-- The length of a legal payload fits LEN (R6). -/
theorem State.toNat_install_len (e : StatusCode) (fits : data.length ≤ s.cfg.maxLenBytes.val) :
    (s.install data e).len.toNat = data.length := by
  have hbound := s.cfg.bits_lt
  rw [State.install_len, BitVec.toNat_ofNat]
  exact Nat.mod_eq_of_lt (by omega)

/-- The bytes of a legal payload, and no others, are those of the stream (R18, R29). -/
theorem State.install_readByte (e : StatusCode) (fits : data.length ≤ s.cfg.maxLenBytes.val) (a : Nat) :
    (s.install data e).readByte a = data[a]? := by
  unfold State.readByte
  rw [State.toNat_install_len e fits, State.install_buf, Memory.read_ofBytes]
  split
  · next hin => simp [hin]
  · next hout => exact (List.getElem?_eq_none (Nat.le_of_not_lt hout)).symm

end install

/-! ## The registers that READ_REG names (R75) -/

section readReg
variable {s : State} {r : BitVec 4}

/-- STATUS reads as CODE below zeros (R21). -/
theorem State.toNat_readReg_status (hr : r.toNat = 0) : (s.readReg r).toNat = s.statusCode.toNat := by
  obtain rfl : r = 0#4 := BitVec.eq_of_toNat_eq hr
  exact BitVec.toNat_setWidth_of_le (show 4 ≤ 32 by decide)

theorem State.readReg_pos (hr : r.toNat = 1) : s.readReg r = s.pos := by
  obtain rfl : r = 1#4 := BitVec.eq_of_toNat_eq hr
  rfl

theorem State.readReg_len (hr : r.toNat = 2) : s.readReg r = s.len := by
  obtain rfl : r = 2#4 := BitVec.eq_of_toNat_eq hr
  rfl

theorem State.readReg_reserved (hr : 3 ≤ r.toNat) : s.readReg r = 0 := by
  have hstatus : r ≠ 0#4 := by rintro rfl; simp at hr
  have hpos : r ≠ 1#4 := by rintro rfl; simp at hr
  have hlen : r ≠ 2#4 := by rintro rfl; simp at hr
  unfold State.readReg
  rw [if_neg hstatus, if_neg hpos, if_neg hlen]

end readReg

/-! ## The host operations by their rules (R73 to R75) -/

/-- Settles O36: RESET installs the empty stream with status OK, and `State.reset` holds the same (R94). -/
theorem resetReturnsToPowerOn : Obligations.ResetReturnsToPowerOn :=
  ⟨decode_host_encodeWord (i := .reset) rfl (by rintro d ⟨⟩), fun _ => ⟨_, rfl, rfl, rfl, rfl, rfl, rfl⟩⟩

/-- Settles O37, a lemma for each branch of R74's pseudocode. -/
theorem loadFollowsItsRule : Obligations.LoadFollowsItsRule := by
  intro data s
  refine ⟨decode_host_encodeWord (i := .load data) rfl (by rintro d ⟨⟩; rfl), fun fits => ?_, execLoad_of_lt⟩
  exact ⟨_, execLoad_of_le fits, State.install_readByte .ok fits, State.toNat_install_len .ok fits, rfl⟩

/-- Settles O38, a lemma for each line of R75's pseudocode. -/
theorem readRegFollowsItsRule : Obligations.ReadRegFollowsItsRule := fun r s =>
  ⟨decode_host_encodeWord (i := .readReg r) rfl (by rintro d ⟨⟩), s.readReg r, rfl, State.toNat_readReg_status,
    State.readReg_pos, State.readReg_len, State.readReg_reserved⟩

/-! ## The ways out of the error state (R76, R83) -/

/-- An instruction that clears CODE is RESET or LOAD: a command in the error state reports the recorded code (R82),
and READ_REG only answers. -/
theorem reset_or_load_of_exec_clears {i : Instr} {s t : State} (h : exec i s = .next t) (hs : s.statusCode ≠ 0)
    (ht : t.statusCode = 0) : i = .reset ∨ ∃ data, i = .load data := by
  cases hc : i.isCommand with
  | true =>
    obtain rfl := Host.Outcome.next.inj ((exec_command_of_error hc hs).symm.trans h)
    exact absurd ht hs
  | false =>
    rcases hostOperation_of_not_isCommand hc with rfl | ⟨data, rfl⟩ | ⟨r, rfl⟩
    · exact .inl rfl
    · exact .inr ⟨data, rfl⟩
    · obtain rfl := execReadReg_next h
      exact absurd ht hs

/-- In the error state a word that is no instruction, on either port, leaves CODE as it is (R61, R82). -/
theorem execUndecoded_statusCode_of_error {e : DecodeError} {s t : State} (h : execUndecoded e s = .next t)
    (hs : s.statusCode ≠ 0) : t.statusCode = s.statusCode := by
  cases e with
  | illegalCommand =>
    rcases execIllegalCommand_next h with ⟨-, rfl⟩ | ⟨hrunning, -⟩
    · rfl
    · exact absurd hrunning hs
  | reservedHostWord =>
    obtain rfl := execReservedHostWord_next h
    rfl

/-- A host operation is reached by its own word on the host port only (R58, R88). -/
theorem eq_host_of_decode {op : Operation} {i : Instr} (hd : decode op = .ok i) (hc : i.isCommand = false) :
    ∃ payload, op = .host (encodeWord i) payload := by
  cases op with
  | command w => exact absurd (isCommand_of_decode_command hd) (by simp [hc])
  | host w payload =>
    obtain ⟨-, rfl, -⟩ := encodeWord_of_decode_host hd
    exact ⟨payload, rfl⟩

/-- Settles O17: of the operations a step may take only RESET and LOAD clear CODE, and each has one word; both
install a stream with status OK. -/
theorem onlyResetAndLoadLeaveTheErrorState : Obligations.OnlyResetAndLoadLeaveTheErrorState := by
  refine ⟨fun s t h hs ht => ?_, fun _ => ⟨_, rfl, rfl⟩, fun _ _ fits => ⟨_, execLoad_of_le fits, rfl⟩⟩
  rcases step_next h with ⟨-, rfl⟩ | ⟨op, rest, i, hp, hd, hi⟩ | ⟨op, rest, e, -, -, he⟩
  · exact absurd ht hs
  · rcases reset_or_load_of_exec_clears hi hs ht with rfl | ⟨data, rfl⟩
    · obtain ⟨payload, rfl⟩ := eq_host_of_decode hd rfl
      exact ⟨payload, rest, .inl hp⟩
    · obtain ⟨payload, rfl⟩ := eq_host_of_decode hd rfl
      exact ⟨payload, rest, .inr hp⟩
  · exact absurd ((execUndecoded_statusCode_of_error he hs).symm.trans ht) hs

end Sys2Proof.Machine
end

section
/-! PROOFS. 60_exceptions.md: the rights of the two ports (R88), the idle block (R93), the error state towards the
commands (R81, R82), and the codes the block produces (R77, R80). -/

namespace Sys2Proof.Machine

/-! ## The rights of the ports (R88) -/

/-- A command is of one of the four families of R57. -/
theorem command_of_isCommand {i : Instr} (hc : i.isCommand = true) :
    (∃ n, i = .read n) ∨ (∃ n, i = .peek n) ∨ i = .exhausted ∨ ∃ k, i = .readb k := by
  cases i with
  | read n => exact .inl ⟨n, rfl⟩
  | peek n => exact .inr (.inl ⟨n, rfl⟩)
  | exhausted => exact .inr (.inr (.inl rfl))
  | readb k => exact .inr (.inr (.inr ⟨k, rfl⟩))
  | reset => cases hc
  | load data => cases hc
  | readReg r => cases hc

/-- Settles O6: each port's decoder gives instructions of its own kind, and a LOAD takes the payload beside its
word. -/
theorem portsKeepTheirRights : Obligations.PortsKeepTheirRights := by
  refine ⟨fun w i h => command_of_isCommand (isCommand_of_decode_command h), fun w payload i h => ?_⟩
  obtain ⟨-, -, hdata⟩ := encodeWord_of_decode_host h
  rcases hostOperation_of_not_isCommand (isCommand_of_decode_host h) with rfl | ⟨data, rfl⟩ | ⟨r, rfl⟩
  · exact .inl rfl
  · obtain rfl := hdata data rfl
    exact .inr (.inl rfl)
  · exact .inr (.inr ⟨r, rfl⟩)

/-! ## The idle block (R93) -/

/-- Settles O11: with nothing waiting there is no operation to take. -/
theorem idleStepKeepsAllState : Obligations.IdleStepKeepsAllState := by
  intro s hp
  unfold step
  rw [State.takeOperation_eq_none.mpr hp]

/-! ## The step of a command word -/

/-- A step that takes a command word runs a command, or has the effect of an illegal word (R57, R59, R60). -/
theorem step_command {s : State} {w : Word} {rest : List Operation} (hp : s.pending = .command w :: rest) :
    (∃ i : Instr, i.isCommand = true ∧ step s = exec i { s with pending := rest }) ∨
    step s = execIllegalCommand { s with pending := rest } := by
  cases hd : decode (.command w) with
  | ok i => exact .inl ⟨i, isCommand_of_decode_command hd, step_of_decode_ok hp hd⟩
  | error e =>
    obtain rfl := error_of_decode_command hd
    exact .inr (step_of_decode_error hp hd)

/-! ## Commands in the error state (R82) -/

/-- Settles O16: legal and illegal command words open with the same sticky check. -/
theorem errorStateIsTerminalForCommands : Obligations.ErrorStateIsTerminalForCommands := by
  intro s w rest hp hs
  rcases step_command hp with ⟨i, hc, hstep⟩ | hstep
  · exact hstep.trans (exec_command_of_error hc hs)
  · exact hstep.trans (whenRunning_of_error hs)

/-! ## The error entry (R81) -/

/-- A command that leaves the running state has raised TruncatedStream or IllegalCommand: a command that completes
answers with status 0. -/
theorem exec_command_raises {i : Instr} {s t : State} (hc : i.isCommand = true) (h : exec i s = .next t)
    (hs : s.statusCode = 0) (ht : t.statusCode ≠ 0) :
    t = s.raise .truncatedStream ∨ t = s.raise .illegalCommand := by
  rcases command_of_isCommand hc with ⟨n, rfl⟩ | ⟨n, rfl⟩ | rfl | ⟨k, rfl⟩
  · rcases execRead_next h with ⟨herror, -⟩ | ⟨-, -, hraise⟩ | ⟨-, -, -, hraise⟩ | ⟨-, -, -, rfl⟩
    · exact absurd hs herror
    · exact .inr hraise
    · exact .inl hraise
    · exact absurd hs ht
  · rcases execPeek_next h with ⟨herror, -⟩ | ⟨-, -, hraise⟩ | ⟨-, -, rfl⟩
    · exact absurd hs herror
    · exact .inr hraise
    · exact absurd hs ht
  · rcases execExhausted_next h with ⟨herror, -⟩ | ⟨-, rfl⟩
    · exact absurd hs herror
    · exact absurd hs ht
  · rcases execReadb_next h with ⟨herror, -⟩ | ⟨-, -, hraise⟩ | ⟨-, -, rfl⟩
    · exact absurd hs herror
    · exact .inl hraise
    · exact absurd hs ht

/-- So has any command word that does, legal or illegal, and from the state in which it was taken. -/
theorem step_command_raises {s t : State} {w : Word} {rest : List Operation} (hp : s.pending = .command w :: rest)
    (h : step s = .next t) (hs : s.statusCode = 0) (ht : t.statusCode ≠ 0) :
    t = { s with pending := rest }.raise .truncatedStream ∨ t = { s with pending := rest }.raise .illegalCommand := by
  rcases step_command hp with ⟨i, hc, hstep⟩ | hstep
  · exact exec_command_raises hc (hstep.symm.trans h) hs ht
  · have hraise := hstep.trans (execIllegalCommand_of_running hs)
    exact .inr (Host.Outcome.next.inj (h.symm.trans hraise))

/-- Settles O18: `State.raise` is the error entry, and writes CODE and the response only. -/
theorem errorEntryIsPrecise : Obligations.ErrorEntryIsPrecise := by
  intro s t w rest hp h hs ht
  rcases step_command_raises hp h hs ht with rfl | rfl
  · exact ⟨.inl rfl, rfl⟩
  · exact ⟨.inr rfl, rfl⟩

/-! ## The codes the block produces (R77, R80) -/

/-- On each port an operation leaves CODE as it is, or puts 0, 5 or 7 there. -/
theorem PortAnswer.statusCode {op : Operation} {s t : State} (h : PortAnswer op s t) :
    t.statusCode = s.statusCode ∨ t.statusCode = 0 ∨ t.statusCode = 5 ∨ t.statusCode = 7 := by
  cases op with
  | command w =>
    obtain ⟨p, r, hr, rfl⟩ := h
    rcases hr.code with hkept | hraised
    · exact .inl hkept
    · exact .inr (.inr hraised)
  | host w payload =>
    cases h with
    | kept w => exact .inl rfl
    | installed data e w fits code =>
      rcases code with rfl | rfl
      · exact .inr (.inl rfl)
      · exact .inr (.inr (.inr rfl))

/-- Settles O19: a step that changes CODE takes an operation, and the codes are those its port's answers allow. -/
theorem blockProducesOnlyItsCodes : Obligations.BlockProducesOnlyItsCodes := by
  intro s t h hchanged
  rcases step_answers h with ⟨-, rfl⟩ | ⟨op, rest, -, ha⟩
  · exact absurd rfl hchanged
  · exact ha.statusCode.resolve_left hchanged

end Sys2Proof.Machine
end

section
/-! PROOFS. 70_reset_and_hazards.md: the values after reset (R95), and that every operation completes (R104). -/

namespace Sys2Proof.Machine

/-! ## Every operation completes (R104) -/

/-- A check of R85 answers for itself where it fails, so a command completes where its body does. -/
theorem whenRunning_completes {s : State} {body : Result} (h : ∃ t, body = .next t) :
    ∃ t, whenRunning s body = .next t := by
  unfold whenRunning
  split
  · exact h
  · exact ⟨_, rfl⟩

theorem whenLegal_completes {s : State} {legal : Bool} {body : Result} (h : ∃ t, body = .next t) :
    ∃ t, whenLegal s legal body = .next t := by
  unfold whenLegal
  split
  · exact h
  · exact ⟨_, rfl⟩

/-- Behind the check against the stream, the body may rely on what was checked. -/
theorem whenWithin_completes {s : State} {P : Prop} [Decidable P] {body : Result} (h : P → ∃ t, body = .next t) :
    ∃ t, whenWithin s (decide P) body = .next t := by
  unfold whenWithin
  split
  · next hwithin => exact h (of_decide_eq_true hwithin)
  · exact ⟨_, rfl⟩

/-- Where a stream primitive is defined, its reader completes. -/
theorem withData_completes {α : Type} {data : Option α} {d : α} (h : data = some d) (body : α → State) :
    ∃ t, withData data body = .next t :=
  ⟨body d, by rw [h, withData_some]⟩

/-- The bits READ asks for are inside the stream once n <= R has been checked (R64). -/
theorem execRead_completes {s : State} (hi : Inv s) (n : BitVec 6) : ∃ t, execRead n s = .next t :=
  whenRunning_completes <| whenLegal_completes <| whenWithin_completes fun hn =>
    withData_completes (State.bits_of_le (hi.pos_add_le_bitLen hn)) _

/-- PEEK asks for min(n, R) bits, so it needs no check against the stream (R65). -/
theorem execPeek_completes {s : State} (hi : Inv s) (n : BitVec 6) : ∃ t, execPeek n s = .next t :=
  whenRunning_completes <| whenLegal_completes <|
    withData_completes (State.bits_of_le (hi.pos_add_le_bitLen (Nat.min_le_right ..))) _

/-- The bytes READB asks for are inside the stream once its end has been checked, from any state (R70). -/
theorem execReadb_completes (s : State) (k : BitVec 28) : ∃ t, execReadb k s = .next t :=
  whenRunning_completes <| whenWithin_completes fun hend =>
    withData_completes (State.memRead_of_le ((s.readbEnd_le_iff _).mp hend)) _

/-- LOAD accepts or refuses its payload, and answers in both cases (R74). -/
theorem execLoad_completes (s : State) (data : List Byte) : ∃ t, execLoad data s = .next t := by
  rcases Nat.lt_or_ge s.cfg.maxLenBytes.val data.length with hlong | hfits
  · exact ⟨_, execLoad_of_lt hlong⟩
  · exact ⟨_, execLoad_of_le hfits⟩

/-- Every instruction completes, well formed or not. -/
theorem exec_completes {s : State} (hi : Inv s) (i : Instr) : ∃ t, exec i s = .next t := by
  cases i with
  | read n => exact execRead_completes hi n
  | peek n => exact execPeek_completes hi n
  | exhausted => exact whenRunning_completes ⟨_, rfl⟩
  | readb k => exact execReadb_completes s k
  | reset => exact ⟨_, rfl⟩
  | load data => exact execLoad_completes s data
  | readReg r => exact ⟨_, rfl⟩

/-- So does a word that is no instruction, on either port and in any state (R60, R61). -/
theorem execUndecoded_completes (s : State) (e : DecodeError) : ∃ t, execUndecoded e s = .next t := by
  cases e with
  | illegalCommand => exact whenRunning_completes ⟨_, rfl⟩
  | reservedHostWord => exact ⟨_, rfl⟩

/-- Settles O48: the step is idle, runs an instruction or handles a word that is none, and each completes; taking the
operation off its port keeps the invariant. -/
theorem everyOperationCompletes : Obligations.EveryOperationCompletes := by
  intro s hi
  cases hp : s.pending with
  | nil => exact ⟨s, idleStepKeepsAllState s hp⟩
  | cons op rest =>
    cases hd : decode op with
    | ok i =>
      rw [step_of_decode_ok hp hd]
      exact exec_completes (hi.with_pending rest) i
    | error e =>
      rw [step_of_decode_error hp hd]
      exact execUndecoded_completes _ e

/-! ## The state after reset (R95) -/

/-- Settles O44: the registers are those `State.reset` writes, and LEN 0 leaves no offset below it. -/
theorem resetStateHoldsTheResetValues : Obligations.ResetStateHoldsTheResetValues :=
  ⟨rfl, rfl, rfl, rfl, rfl, rfl, fun a => if_neg (Nat.not_lt_zero a)⟩

/-- The empty stream, read from bit 0 in the running state, keeps the invariant (R18 to R21). -/
theorem inv_reset : Inv State.reset where
  canonical := State.reset_buf_wf
  within := List.forall_mem_nil _
  lenLegal := Nat.zero_le _
  posLegal := Nat.zero_le _
  codeLegal := .inl rfl

/-- Settles O45: nothing has been answered yet, so the law of responses has nothing to say. -/
theorem resetStateMeetsTheInvariants : Obligations.ResetStateMeetsTheInvariants :=
  ⟨inv_reset, responseInv_of_none rfl⟩

end Sys2Proof.Machine
end
